-- ==== Sys2Proof/Word.lean ====
section
/-! DEFINITION. The two widths of the core (00_scope.md R5): an 8-bit data byte and a 16-bit word, which is also an
address. Their slicing and joining stands in Machine/Bits.lean. -/

namespace Sys2Proof

/-- A value of width 8 (00_scope.md section 5, "Numbers"). -/
abbrev Byte := BitVec 8

/-- A value of width 16: PC, SP, a pair view, an address (00_scope.md section 5). -/
abbrev Word := BitVec 16

end Sys2Proof
end

