-- ==== Sys2Proof/Machine/Bits.lean ====
section
/-! DEFINITION. Bit fields, byte order and sign extension (00_scope.md section 5). -/

namespace Sys2Proof.Machine

/-- `hi8(w)`, bits 15 to 8. -/
def hi8 (w : Word) : Byte := w.extractLsb' 8 8

/-- `lo8(w)`, bits 7 to 0. -/
def lo8 (w : Word) : Byte := w.extractLsb' 0 8

/-- `{hi, lo}`, the word `hi*256 + lo`. Of two bytes in memory the one at the lower address is `lo` (20_memory.md R44). -/
def cat (hi lo : Byte) : Word := BitVec.append hi lo

/-- `sext_16(b)`: the word with the same two's-complement value as the byte. -/
def sext16 (b : Byte) : Word := b.signExtend 16

/-- `b[3:0]` as a number. -/
def lowNibble (b : Byte) : Nat := b.toNat % 16

/-- Byte number `k` of a number whose byte 0 is its least significant eight bits. -/
def byteOf (w k : Nat) : Byte := BitVec.ofNat 8 (w / 256 ^ k)

end Sys2Proof.Machine
end

