-- ==== Sys2Proof/Config.lean ====
section
/-! DEFINITION. What the platform's implementer fixes (00_scope.md R5, parameter CART) and the free values. CART's plain
parameters are data (`CartConfig`) carried, unchanging, in the cartridge's state, so that a statement about every state
holds for every choice of them; what CART leaves open as a value is an opaque constant, which no proof can evaluate. -/

namespace Sys2Proof

/-- The three cartridge control registers (20_memory.md R53). -/
inductive Control where
  | ramEnable | romBank | ramBank
  deriving DecidableEq, Repr

/-- A window of write addresses, both ends included, that selects one control register (20_memory.md R53; the addresses
are CART parameters, 92_eei_decisions.md D13). -/
structure Window where
  lo : Nat
  hi : Nat
  control : Control
  deriving DecidableEq, Repr

/-- The cartridge controller's parameters that the source names without values (00_scope.md R5, parameter CART). -/
structure CartConfig where
  /-- Which write address selects which control register; the first window that holds the address counts. -/
  windows : List Window
  /-- The bit-width of the ROM bank index. -/
  romBankBits : Nat
  /-- Whether the coercion of a written 0 to 1 comes before the mask to the bit-width. -/
  coerceBeforeMask : Bool
  /-- Whether a stored index 0, which only a coercion before the mask can leave, reads as bank 1 ("0 aliases to 1",
  20_memory.md R51; log entry 21). -/
  zeroReadsBankOne : Bool
  /-- The offset of RAM bank k is k times this (20_memory.md R54). -/
  ramStride : Nat
  /-- The size of cartridge RAM in bytes; 0 when the cartridge has none. -/
  ramSize : Nat
  deriving DecidableEq, Repr

namespace Config

/-- FREE VALUE (log entry 6): the byte a ROM read answers when the computed offset lies past the end of the image
(20_memory.md R52: "not in the source: CART parameter"). It may depend on the parameters, the image, its
size and the offset. -/
opaque romPastEnd : CartConfig → List Host.Cell → Nat → Nat → Byte

/-- FREE VALUE (log entry 7): which byte of cartridge RAM, if any, an enabled access reaches when the offset the rule
computes lies past the end of the RAM. It may depend on the parameters, the selected bank and the place in the window. -/
opaque ramAlias : CartConfig → Fin 4 → Nat → Option Nat

/-- FREE VALUE (log entry 7): the byte an enabled read of cartridge RAM answers when it reaches no byte of the RAM. -/
opaque ramNoByte : CartConfig → Fin 4 → Nat → Byte

end Config

end Sys2Proof
end

