-- ==== Sys2Proof/Machine/Memory.lean ====
section
/-! DEFINITION. A byte store as plain data: the listed addresses with their bytes, strictly rising, none listed with the
value an unlisted address reads as. The four stores of the platform (20_memory.md R46) all have this form. -/

namespace Sys2Proof.Machine

/-- A byte store. -/
abbrev Memory := List Host.Cell

/-- What an unlisted address reads as. DESIGN CHOICE (log entries 4 and 5): the source gives no initial content
(20_memory.md R50). Every content can be listed, so a statement about every state assumes nothing about it. -/
def Memory.unlisted : Byte := 0x00#8

/-- Read the byte at an address (20_memory.md R50). -/
def Memory.read : Memory → Nat → Byte
  | [], _ => Memory.unlisted
  | (k, v) :: m, a => if a = k then v else Memory.read m a

/-- Put a cell in front of a store whose addresses are all higher, unless it would say what is said anyway. -/
def Memory.cons (a : Nat) (v : Byte) (m : Memory) : Memory :=
  if v = Memory.unlisted then m else (a, v) :: m

/-- Replace the byte at an address, keeping the form (20_memory.md R50). -/
def Memory.write : Memory → Nat → Byte → Memory
  | [], a, v => Memory.cons a v []
  | (k, w) :: m, a, v =>
    if a < k then Memory.cons a v ((k, w) :: m)
    else if a = k then Memory.cons a v m
    else (k, w) :: Memory.write m a v

/-- The canonical form: addresses strictly rising, no entry with the value of an unlisted address. -/
def Memory.wf : Memory → Bool
  | [] => true
  | (k, v) :: m => decide (v ≠ Memory.unlisted) && m.all (fun c => decide (k < c.1)) && Memory.wf m

/-- Every listed address lies in `lo ≤ a < hi`. -/
def Memory.within (lo hi : Nat) (m : Memory) : Bool :=
  m.all fun c => decide (lo ≤ c.1) && decide (c.1 < hi)

/-- The store that holds a byte sequence from address `base` on. -/
def Memory.ofBytes (base : Nat) : List Byte → Memory
  | [] => []
  | b :: bs => Memory.cons base b (Memory.ofBytes (base + 1) bs)

end Sys2Proof.Machine
end

