-- ==== Sys2Proof/Machine/Params.lean ====
section
/-! DEFINITION. The values `State.reset` gives the OPEN parameters of 00_scope.md R5. The spec gives none of them: each is
a DESIGN CHOICE of its log entry, taken from the bus of the spec's test vectors (95_test_vectors.md section 1) where that
bus has one. `construct` (Machine/Boot.lean) takes every one of them as an argument. -/

namespace Sys2Proof.Machine.Params

/-- `SP_RESET` at reset (log entry 3): the value of 95_test_vectors.md section 1. -/
def spReset : Word := 0xD000#16

/-- The length of the ROM image at reset (log entry 4): 32 KB, as TESTBUS has it. -/
def romSize : Nat := 0x8000

/-- CART at reset (log entry 2): no write address selects a control register and there is no cartridge RAM, so nothing is
assumed of the windows the spec leaves open. -/
def cartConfig : CartConfig :=
  { windows := [], romBankBits := 8, coerceBeforeMask := false, zeroReadsBankOne := false,
    ramStride := 0x2000, ramSize := 0 }

end Sys2Proof.Machine.Params
end

