-- ==== Sys2Proof/Syntax.lean ====
section
/-! DEFINITION. The instruction set as syntax: the two selector kinds (10_state.md R12), the conditions
(40_jumps.md R101), the operation tags (30_encoding.md R82), the formats (R71), and `Instr`, one constructor per row
of spec/opcode_table.json in the table's order. -/

namespace Sys2Proof

/-- A byte-register selector (10_state.md R12). F is not one (R29). -/
inductive RegSel where
  | a | b | c | d | e | h | l
  deriving DecidableEq, Repr

/-- A pair selector (10_state.md R12), a kind disjoint from `RegSel`. SP is not one (R27). -/
inductive PairSel where
  | af | bc | de | hl
  deriving DecidableEq, Repr

/-- A condition of JR: one flag and the value it must have (40_jumps.md R101). -/
inductive Cond where
  | nz | z | nc | c
  deriving DecidableEq, Repr

/-- The closed set of eleven operation tags with their static operands (30_encoding.md R82). -/
inductive Tag where
  | nop
  | jpNn
  | jrCc (cc : Cond)
  | cpN
  | incRr (rr : PairSel)
  | xorR (r : RegSel)
  | rst (v : Word)
  | stRrR (rr : PairSel) (r : RegSel)
  | ldRRr (r : RegSel) (rr : PairSel)
  | ldRN (r : RegSel)
  | escape
  deriving DecidableEq, Repr

/-- The operation tags of the extended table. The source defines no extended instruction, so there is none
(30_encoding.md R75). -/
inductive ExtTag where
  deriving DecidableEq, Repr

/-- The instruction formats (30_encoding.md R71). -/
inductive Format where
  | op | opN8 | opE8 | opN16 | cbX
  deriving DecidableEq, Repr

/-- The length in bytes a format fixes (30_encoding.md R71). -/
def Format.length : Format → Nat
  | .op => 1
  | .opN8 => 2
  | .opE8 => 2
  | .opN16 => 3
  | .cbX => 2

/-- The covered instructions (30_encoding.md R78). `At` reads "at the address in": `ldAtBcA` is `LD (BC),A`,
`ldAAtBc` is `LD A,(BC)`. An operand byte or word stands as an argument, as fetched. -/
inductive Instr where
  | nop
  | ldAtBcA
  | incBc
  | ldBN (n : Byte)
  | ldAAtBc
  | ldCN (n : Byte)
  | ldAtDeA
  | incDe
  | ldDN (n : Byte)
  | ldAAtDe
  | ldEN (n : Byte)
  | jrNz (e : Byte)
  | incHl
  | ldHN (n : Byte)
  | jrZ (e : Byte)
  | ldLN (n : Byte)
  | jrNc (e : Byte)
  | jrC (e : Byte)
  | ldAN (n : Byte)
  | ldBAtHl
  | ldCAtHl
  | ldDAtHl
  | ldEAtHl
  | ldHAtHl
  | ldLAtHl
  | ldAtHlB
  | ldAtHlC
  | ldAtHlD
  | ldAtHlE
  | ldAtHlH
  | ldAtHlL
  | ldAtHlA
  | ldAAtHl
  | xorB
  | xorC
  | xorD
  | xorE
  | xorH
  | xorL
  | xorA
  | jpNn (nn : Word)
  | rst00
  | prefixX (x : Byte)
  | rst08
  | rst10
  | rst18
  | rst20
  | rst28
  | rst30
  | cpN (n : Byte)
  | rst38
  deriving DecidableEq, Repr

/-- The operation tag and static operand of an instruction (30_encoding.md R78, column "tag and static operand"). -/
def Instr.tag : Instr → Tag
  | .nop => .nop
  | .ldAtBcA => .stRrR .bc .a
  | .incBc => .incRr .bc
  | .ldBN _ => .ldRN .b
  | .ldAAtBc => .ldRRr .a .bc
  | .ldCN _ => .ldRN .c
  | .ldAtDeA => .stRrR .de .a
  | .incDe => .incRr .de
  | .ldDN _ => .ldRN .d
  | .ldAAtDe => .ldRRr .a .de
  | .ldEN _ => .ldRN .e
  | .jrNz _ => .jrCc .nz
  | .incHl => .incRr .hl
  | .ldHN _ => .ldRN .h
  | .jrZ _ => .jrCc .z
  | .ldLN _ => .ldRN .l
  | .jrNc _ => .jrCc .nc
  | .jrC _ => .jrCc .c
  | .ldAN _ => .ldRN .a
  | .ldBAtHl => .ldRRr .b .hl
  | .ldCAtHl => .ldRRr .c .hl
  | .ldDAtHl => .ldRRr .d .hl
  | .ldEAtHl => .ldRRr .e .hl
  | .ldHAtHl => .ldRRr .h .hl
  | .ldLAtHl => .ldRRr .l .hl
  | .ldAtHlB => .stRrR .hl .b
  | .ldAtHlC => .stRrR .hl .c
  | .ldAtHlD => .stRrR .hl .d
  | .ldAtHlE => .stRrR .hl .e
  | .ldAtHlH => .stRrR .hl .h
  | .ldAtHlL => .stRrR .hl .l
  | .ldAtHlA => .stRrR .hl .a
  | .ldAAtHl => .ldRRr .a .hl
  | .xorB => .xorR .b
  | .xorC => .xorR .c
  | .xorD => .xorR .d
  | .xorE => .xorR .e
  | .xorH => .xorR .h
  | .xorL => .xorR .l
  | .xorA => .xorR .a
  | .jpNn _ => .jpNn
  | .rst00 => .rst 0x0000#16
  | .prefixX _ => .escape
  | .rst08 => .rst 0x0008#16
  | .rst10 => .rst 0x0010#16
  | .rst18 => .rst 0x0018#16
  | .rst20 => .rst 0x0020#16
  | .rst28 => .rst 0x0028#16
  | .rst30 => .rst 0x0030#16
  | .cpN _ => .cpN
  | .rst38 => .rst 0x0038#16

/-- The format of a tag (30_encoding.md R71, column "used by"). -/
def Tag.format : Tag → Format
  | .nop | .incRr _ | .xorR _ | .rst _ | .stRrR _ _ | .ldRRr _ _ => .op
  | .cpN | .ldRN _ => .opN8
  | .jrCc _ => .opE8
  | .jpNn => .opN16
  | .escape => .cbX

/-- The byte length of an instruction (30_encoding.md R70, R76). -/
def Instr.length (i : Instr) : Nat := i.tag.format.length

end Sys2Proof
end

