-- ==== Sys2Proof/Machine/State.lean ====
section
/-! DEFINITION. The state of the core (10_state.md R10) on any bus, the state of the reference platform
(20_memory.md R46 to R56), the two together, the faults (60_exceptions.md R200), the refusals, and the state right after
reset (70_reset_and_hazards.md R240). -/

namespace Sys2Proof.Machine

/-- The seven byte registers (10_state.md R11). -/
structure Regs where
  a : Byte
  b : Byte
  c : Byte
  d : Byte
  e : Byte
  h : Byte
  l : Byte
  deriving DecidableEq, Repr

/-- The four flags Zero, Subtract, HalfCarry, Carry (10_state.md R13). -/
structure Flags where
  z : Bool
  n : Bool
  h : Bool
  c : Bool
  deriving DecidableEq, Repr

/-- The cartridge (20_memory.md R51): ROM bytes by image offset and the image's length, RAM bytes by RAM offset, the three
control fields, and the controller's fixed parameters, the bank stride among them. -/
structure Cartridge where
  config : CartConfig
  rom : Memory
  romSize : Nat
  ram : Memory
  ramEnabled : Bool
  romBank : Nat
  ramBank : Fin 4
  deriving DecidableEq, Repr

/-- What lies behind the bus of the reference platform: Video RAM and Work RAM by bus address (20_memory.md R50), and the
cartridge (R51). -/
structure Platform where
  vram : Memory
  wram : Memory
  cart : Cartridge
  deriving DecidableEq, Repr

/-- The core on a bus whose own state is of type `σ`: the core's 92 bits (10_state.md R10) and the state behind the bus
(92_eei_decisions.md D27; log entry 1). -/
structure CoreOn (σ : Type) where
  regs : Regs
  flags : Flags
  pc : Word
  sp : Word
  bus : σ
  deriving DecidableEq, Repr

/-- The whole machine: the core on the bus of the reference platform. -/
structure State extends CoreOn Platform
  deriving DecidableEq, Repr

/-- Whether a bus access reads or writes (60_exceptions.md R200: a model may record it). -/
inductive Access where
  | read | write
  deriving DecidableEq, Repr

/-- The faults of 60_exceptions.md R200. Each ends the run (R205); the state at the abort has no meaning and is not
carried. All are SAFE differences: the model stops where the reference may go on. -/
inductive Fault where
  /-- DecodeFault(primary, op, a0): raised by the step when the opcode byte is not covered (R201). Safe. -/
  | decodePrimary (op : Byte) (a0 : Word)
  /-- DecodeFault(extended, x, a0): raised by PREFIX for every extension byte (R202). Safe. -/
  | decodeExtended (x : Byte) (a0 : Word)
  /-- DispatchFault(tag): named by the source, raised by nothing, every tag having a handler (R203). Safe. -/
  | dispatch (tag : Tag)
  /-- AddressingFault(addr): raised by a bus access to an unwired address (R204, 20_memory.md R47). Safe. -/
  | addressing (access : Access) (addr : Word)
  deriving DecidableEq, Repr

/-- The refusals: inputs the model does not accept. -/
inductive Refusal where
  /-- An instruction with no meaning in this model; no arm of exec answers it. Safe. -/
  | notModelled (mnemonic : String)
  /-- A ROM image shorter than 0x014E bytes: construct refuses it and there is no state (60_exceptions.md R219). Safe. -/
  | shortImage (length : Nat)
  deriving DecidableEq, Repr

/-- The cartridge right after reset (70_reset_and_hazards.md R240; the control fields' values are 92_eei_decisions.md D12,
log entry 19; the parameters, log entries 2 and 4): an image of zero bytes, no RAM. -/
def Cartridge.reset : Cartridge :=
  { config := Params.cartConfig, rom := [], romSize := Params.romSize, ram := [],
    ramEnabled := false, romBank := 1, ramBank := 0 }

/-- The machine right after reset: the registers of 10_state.md R37, the flags R38 gives an image whose header checksum
byte is zero, PC = 0x0100 (R39), SP = `SP_RESET` (open; log entry 3), no byte of memory listed. A program is loaded from
outside (log entry 4). -/
def State.reset : State :=
  { regs := { a := 0x01#8, b := 0x00#8, c := 0x13#8, d := 0x00#8, e := 0xD8#8, h := 0x01#8, l := 0x4D#8 },
    flags := { z := false, n := false, h := false, c := false },
    pc := 0x0100#16,
    sp := Params.spReset,
    bus := { vram := [], wram := [], cart := Cartridge.reset } }

end Sys2Proof.Machine
end

