-- ==== Sys2Proof/Machine/Interface.lean ====
section
/-! DEFINITION. The bus as a parameter (00_scope.md R4, R5; 92_eei_decisions.md D27): what the core needs of it, and the two
accesses of the core over it (20_memory.md R41). -/

namespace Sys2Proof.Machine

/-- A Memory Bus with its own state of type `σ` (20_memory.md R41): a read gives a byte, a write gives nothing but its effect,
and either raises AddressingFault instead, here `none`. -/
structure Bus (σ : Type) where
  read : σ → Word → Option (Byte × σ)
  write : σ → Word → Byte → Option σ

/-- How a step of the core on a bus ends. -/
abbrev OutcomeOn (σ : Type) : Type := Host.Outcome (CoreOn σ) Fault Refusal

variable {σ : Type}

/-- `MemRead(addr, 1)` (20_memory.md R41). -/
def CoreOn.memRead (m : CoreOn σ) (bus : Bus σ) (addr : Word) : Except Fault (Byte × CoreOn σ) :=
  match bus.read m.bus addr with
  | some (b, q) => .ok (b, { m with bus := q })
  | none => .error (.addressing .read addr)

/-- `MemWrite(addr, 1, v)` (20_memory.md R41). -/
def CoreOn.memWrite (m : CoreOn σ) (bus : Bus σ) (addr : Word) (v : Byte) : Except Fault (CoreOn σ) :=
  match bus.write m.bus addr v with
  | some q => .ok { m with bus := q }
  | none => .error (.addressing .write addr)

end Sys2Proof.Machine
end

