-- ==== Sys2Proof/Machine/Bus.lean ====
section
/-! DEFINITION. The memory bus of the reference platform (20_memory.md R40 to R56), the reference instance of the parameter
BUS: an address is routed to exactly one place, a read asks that place for its byte, a write hands it a byte. -/

namespace Sys2Proof.Machine

/-- The address ranges of 20_memory.md R46. -/
inductive Region where
  | rom | vram | cartRam | wram | unwired
  deriving DecidableEq, Repr

/-- The range an address lies in (20_memory.md R46); it depends on the address alone (R41). -/
def regionOf (addr : Word) : Region :=
  if addr.toNat < 0x8000 then .rom
  else if addr.toNat < 0xA000 then .vram
  else if addr.toNat < 0xC000 then .cartRam
  else if addr.toNat < 0xE000 then .wram
  else .unwired

/-- Where an access ends up: a byte of the ROM image, of Video RAM, of Work RAM or of cartridge RAM, or one of the places
that hold no byte. -/
inductive Route where
  | rom (offset : Nat)
  | vram (address : Nat)
  | wram (address : Nat)
  | cartRam (offset : Nat)
  /-- Cartridge RAM is enabled and present, but the access lies past its end and reaches no byte (log entry 7). -/
  | ramNoByte (bank : Fin 4) (place : Nat)
  /-- Cartridge RAM is disabled or absent (20_memory.md R54). -/
  | ramDenied
  | unwired
  deriving DecidableEq, Repr

/-- The bank a read above 0x4000 selects (20_memory.md R51, R52; for a stored index 0, log entry 21). -/
def Cartridge.readBank (c : Cartridge) : Nat :=
  if c.romBank = 0 then (if c.config.zeroReadsBankOne then 1 else 0) else c.romBank

/-- The image offset a ROM address reads (20_memory.md R52): bank 0 verbatim below 0x4000, the selected bank above. -/
def Cartridge.romOffset (c : Cartridge) (addr : Word) : Nat :=
  if addr.toNat < 0x4000 then addr.toNat else c.readBank * 0x4000 + (addr.toNat - 0x4000)

/-- The RAM offset of a place in the cartridge RAM window, in the selected bank (20_memory.md R54). -/
def Cartridge.ramOffset (c : Cartridge) (addr : Word) : Nat :=
  c.ramBank.val * c.config.ramStride + (addr.toNat - 0xA000)

/-- Whether cartridge RAM answers: enabled and present (20_memory.md R54). -/
def Cartridge.ramReady (c : Cartridge) : Bool := c.ramEnabled && decide (c.config.ramSize ≠ 0)

/-- Where an access to the cartridge RAM window ends up (20_memory.md R54; past the end of the RAM, log entry 7). -/
def Cartridge.ramRoute (c : Cartridge) (addr : Word) : Route :=
  if c.ramReady = false then .ramDenied
  else if c.ramOffset addr < c.config.ramSize then .cartRam (c.ramOffset addr)
  else
    match Config.ramAlias c.config c.ramBank (addr.toNat - 0xA000) with
    | some k => .cartRam (k % c.config.ramSize)
    | none => .ramNoByte c.ramBank (addr.toNat - 0xA000)

/-- The one place an address is routed to (20_memory.md R41, R46). -/
def Platform.route (p : Platform) (addr : Word) : Route :=
  match regionOf addr with
  | .rom => .rom (p.cart.romOffset addr)
  | .vram => .vram addr.toNat
  | .cartRam => p.cart.ramRoute addr
  | .wram => .wram addr.toNat
  | .unwired => .unwired

/-- A byte of the ROM image; past its end a free value (20_memory.md R52, log entry 6). -/
def Cartridge.romByte (c : Cartridge) (offset : Nat) : Byte :=
  if offset < c.romSize then Memory.read c.rom offset else Config.romPastEnd c.config c.rom c.romSize offset

/-- The sentinel of denied cartridge RAM (20_memory.md R51, R54). -/
def ramSentinel : Byte := 0xFF#8

/-- The byte a place answers, `none` for an unwired address. It depends on the contents of the stores, never on the
control fields: reads have no side effect (20_memory.md R41, R50). -/
def Platform.load (p : Platform) : Route → Option Byte
  | .rom k => some (p.cart.romByte k)
  | .vram a => some (Memory.read p.vram a)
  | .wram a => some (Memory.read p.wram a)
  | .cartRam k => some (Memory.read p.cart.ram k)
  | .ramNoByte bank place => some (Config.ramNoByte p.cart.config bank place)
  | .ramDenied => some ramSentinel
  | .unwired => none

/-- The control register a ROM-range write address selects, if any (20_memory.md R53; log entry 9). -/
def Cartridge.controlAt (c : Cartridge) (addr : Word) : Option Control :=
  (c.config.windows.find? fun w => decide (w.lo ≤ addr.toNat) && decide (addr.toNat ≤ w.hi)).map Window.control

/-- The ROM bank index a written byte gives: 0 becomes 1, and the index is masked to its bit-width, in the order the
controller has (20_memory.md R53, D13; log entry 23). -/
def Cartridge.romBankIndex (c : Cartridge) (v : Byte) : Nat :=
  if c.config.coerceBeforeMask then (if v.toNat = 0 then 1 else v.toNat) % 2 ^ c.config.romBankBits
  else if v.toNat % 2 ^ c.config.romBankBits = 0 then 1 else v.toNat % 2 ^ c.config.romBankBits

/-- A write to a control register (20_memory.md R53). -/
def Cartridge.writeControl (c : Cartridge) (k : Control) (v : Byte) : Cartridge :=
  match k with
  | .ramEnable => { c with ramEnabled := decide (lowNibble v = 0xA) }
  | .romBank => { c with romBank := c.romBankIndex v }
  | .ramBank => { c with ramBank := Fin.ofNat 4 v.toNat }

/-- write-ROM (20_memory.md R53): control-register writes only; no ROM byte changes. -/
def Cartridge.writeRom (c : Cartridge) (addr : Word) (v : Byte) : Cartridge :=
  match c.controlAt addr with
  | some k => c.writeControl k v
  | none => c

/-- Replace the byte of a place that holds one and may be written; every other place drops the byte. -/
def Platform.store (p : Platform) (r : Route) (v : Byte) : Platform :=
  match r with
  | .vram a => { p with vram := Memory.write p.vram a v }
  | .wram a => { p with wram := Memory.write p.wram a v }
  | .cartRam k => { p with cart := { p.cart with ram := Memory.write p.cart.ram k v } }
  | .rom _ | .ramNoByte _ _ | .ramDenied | .unwired => p

/-- What a write does to the platform (20_memory.md R41): a store, a control write in the ROM range (R53), a dropped byte for
denied cartridge RAM (R54), or `none` at an unwired address (R47). -/
def Platform.write (p : Platform) (addr : Word) (v : Byte) : Option Platform :=
  match p.route addr with
  | .unwired => none
  | .rom _ => some { p with cart := p.cart.writeRom addr v }
  | .vram a => some (p.store (.vram a) v)
  | .wram a => some (p.store (.wram a) v)
  | .cartRam k => some (p.store (.cartRam k) v)
  | .ramNoByte _ _ => some p
  | .ramDenied => some p

/-- The reference instance of the parameter BUS (20_memory.md R46 to R56). A read changes nothing (R41). -/
def referenceBus : Bus Platform :=
  { read := fun p addr => (p.load (p.route addr)).map fun b => (b, p),
    write := Platform.write }

/-- The core on the reference platform's bus as the whole machine. -/
def CoreOn.toState (m : CoreOn Platform) : State := { toCoreOn := m }

/-- What the core does on the reference bus, as something the whole machine does. -/
def onReference (f : CoreOn Platform → OutcomeOn Platform) (s : State) : Host.Outcome State Fault Refusal :=
  match f s.toCoreOn with
  | .next m => .next m.toState
  | .fault e => .fault e
  | .refused r => .refused r

/-- The byte `MemRead(addr, 1)` gives on the reference bus, or its fault. -/
def State.busRead (s : State) (addr : Word) : Except Fault Byte :=
  (s.memRead referenceBus addr).map Prod.fst

/-- The state `MemWrite(addr, 1, v)` gives on the reference bus, or its fault. -/
def State.busWrite (s : State) (addr : Word) (v : Byte) : Except Fault State :=
  (s.memWrite referenceBus addr v).map CoreOn.toState

end Sys2Proof.Machine
end

