-- ==== Sys2Proof/WellFormed.lean ====
section
/-! DEFINITION. Which static operands a tag may carry (30_encoding.md R78), and a well-formed instruction. Operand
bytes need no check: every byte is a legal `n`, `e` or `x` and every word a legal `nn` (R77). -/

namespace Sys2Proof

/-- The eight restart vectors (40_jumps.md R106). -/
def restartVectors : List Word :=
  [0x0000#16, 0x0008#16, 0x0010#16, 0x0018#16, 0x0020#16, 0x0028#16, 0x0030#16, 0x0038#16]

/-- INC reaches BC, DE and HL only (41_alu.md R129). -/
def incPairOk (rr : PairSel) : Bool := rr != .af

/-- The pair-addressed move has A with BC and DE, and every byte register with HL (42_loads.md, opening; R78). -/
def movePairOk (rr : PairSel) (r : RegSel) : Bool :=
  match rr with
  | .bc | .de => r == .a
  | .hl => true
  | .af => false

/-- A tag whose static operand is one the opcode map selects (30_encoding.md R78). -/
def Tag.wellFormed : Tag → Bool
  | .nop | .jpNn | .jrCc _ | .cpN | .xorR _ | .ldRN _ | .escape => true
  | .incRr rr => incPairOk rr
  | .rst v => restartVectors.contains v
  | .stRrR rr r => movePairOk rr r
  | .ldRRr r rr => movePairOk rr r

/-- The lengths an instruction may have (30_encoding.md R70). -/
def lengthOk (n : Nat) : Bool := decide (1 ≤ n) && decide (n ≤ 3)

/-- A well-formed instruction: its tag is one the opcode map gives, and it is 1 to 3 bytes long (R70). -/
def Instr.wellFormed (i : Instr) : Bool :=
  i.tag.wellFormed && lengthOk i.length

end Sys2Proof
end

