-- ==== Sys2Proof/Decode.lean ====
section
/-! DEFINITION. The decoder, total on any bytes (30_encoding.md R74, R75), the descriptor's informative parts (R76), and
after it the encoder written from the same table (R78). -/

namespace Sys2Proof

/-- What the opcode byte alone settles (30_encoding.md R70, R74): the instruction is whole, or one operand byte is still
to be fetched, or two operand bytes that make a little-endian word (R77). -/
inductive Pending where
  | whole (i : Instr)
  | needsByte (k : Byte → Instr)
  | needsWord (k : Word → Instr)

/-- `DecodePrimary` (30_encoding.md R74, R78): the opcode byte matched whole, `none` for each of the 205 uncovered
values (R79). The opcode values are PRESUMED (log entry 10). -/
def decodePrimary (op : Byte) : Option Pending :=
  match op with
  | 0x00#8 => some (.whole .nop)
  | 0x02#8 => some (.whole .ldAtBcA)
  | 0x03#8 => some (.whole .incBc)
  | 0x06#8 => some (.needsByte .ldBN)
  | 0x0A#8 => some (.whole .ldAAtBc)
  | 0x0E#8 => some (.needsByte .ldCN)
  | 0x12#8 => some (.whole .ldAtDeA)
  | 0x13#8 => some (.whole .incDe)
  | 0x16#8 => some (.needsByte .ldDN)
  | 0x1A#8 => some (.whole .ldAAtDe)
  | 0x1E#8 => some (.needsByte .ldEN)
  | 0x20#8 => some (.needsByte .jrNz)
  | 0x23#8 => some (.whole .incHl)
  | 0x26#8 => some (.needsByte .ldHN)
  | 0x28#8 => some (.needsByte .jrZ)
  | 0x2E#8 => some (.needsByte .ldLN)
  | 0x30#8 => some (.needsByte .jrNc)
  | 0x38#8 => some (.needsByte .jrC)
  | 0x3E#8 => some (.needsByte .ldAN)
  | 0x46#8 => some (.whole .ldBAtHl)
  | 0x4E#8 => some (.whole .ldCAtHl)
  | 0x56#8 => some (.whole .ldDAtHl)
  | 0x5E#8 => some (.whole .ldEAtHl)
  | 0x66#8 => some (.whole .ldHAtHl)
  | 0x6E#8 => some (.whole .ldLAtHl)
  | 0x70#8 => some (.whole .ldAtHlB)
  | 0x71#8 => some (.whole .ldAtHlC)
  | 0x72#8 => some (.whole .ldAtHlD)
  | 0x73#8 => some (.whole .ldAtHlE)
  | 0x74#8 => some (.whole .ldAtHlH)
  | 0x75#8 => some (.whole .ldAtHlL)
  | 0x77#8 => some (.whole .ldAtHlA)
  | 0x7E#8 => some (.whole .ldAAtHl)
  | 0xA8#8 => some (.whole .xorB)
  | 0xA9#8 => some (.whole .xorC)
  | 0xAA#8 => some (.whole .xorD)
  | 0xAB#8 => some (.whole .xorE)
  | 0xAC#8 => some (.whole .xorH)
  | 0xAD#8 => some (.whole .xorL)
  | 0xAF#8 => some (.whole .xorA)
  | 0xC3#8 => some (.needsWord .jpNn)
  | 0xC7#8 => some (.whole .rst00)
  | 0xCB#8 => some (.needsByte .prefixX)
  | 0xCF#8 => some (.whole .rst08)
  | 0xD7#8 => some (.whole .rst10)
  | 0xDF#8 => some (.whole .rst18)
  | 0xE7#8 => some (.whole .rst20)
  | 0xEF#8 => some (.whole .rst28)
  | 0xF7#8 => some (.whole .rst30)
  | 0xFE#8 => some (.needsByte .cpN)
  | 0xFF#8 => some (.whole .rst38)
  | _ => none

/-- `DecodeExtended` (30_encoding.md R75): no extension byte is covered. -/
def decodeExtended (_x : Byte) : Option ExtTag := none

/-- Why a byte sequence is not an instruction: `empty` and `truncated` when bytes are wanting, `uncovered` for an opcode
outside the covered set (30_encoding.md R79). -/
inductive DecodeError where
  | empty
  | uncovered (op : Byte)
  | truncated (op : Byte)
  deriving DecidableEq, Repr

/-- Decoding from a byte sequence, the byte at the lowest address first: the instruction and the bytes after it
(30_encoding.md R70, R77). -/
def decode : List Byte → Except DecodeError (Instr × List Byte)
  | [] => .error .empty
  | op :: rest =>
    match decodePrimary op, rest with
    | none, _ => .error (.uncovered op)
    | some (.whole i), _ => .ok (i, rest)
    | some (.needsByte k), b :: rest' => .ok (k b, rest')
    | some (.needsByte _), [] => .error (.truncated op)
    | some (.needsWord k), lo :: hi :: rest' => .ok (k (Machine.cat hi lo), rest')
    | some (.needsWord _), [_] => .error (.truncated op)
    | some (.needsWord _), [] => .error (.truncated op)

/-- The instruction whose bytes, first byte in the least significant eight bits, are `w` cut to `nbits` bits, every bit
above being 0: the longest instruction has three bytes (30_encoding.md R70). -/
def decodeTableWord (nbits w : Nat) : Option Instr :=
  match decode [Machine.byteOf (w % 2 ^ nbits) 0, Machine.byteOf (w % 2 ^ nbits) 1, Machine.byteOf (w % 2 ^ nbits) 2] with
  | .ok (i, _) => some i
  | .error _ => none

/-- The base machine-cycle cost a descriptor carries (30_encoding.md R76). No rule reads it and the source gives no value;
the numbers are the informative table of 70_reset_and_hazards.md R248 (PRESUMED, log entry 15). For JR it is the cost when
not taken; PREFIX never completes and has none. -/
def Tag.baseCycles : Tag → Option Nat
  | .nop => some 1
  | .xorR _ => some 1
  | .incRr _ => some 2
  | .ldRN _ => some 2
  | .cpN => some 2
  | .stRrR _ _ => some 2
  | .ldRRr _ _ => some 2
  | .jrCc _ => some 2
  | .jpNn => some 4
  | .rst _ => some 4
  | .escape => none

/-- An instruction descriptor (30_encoding.md R76): tag with static operand, byte length, base machine-cycle cost. It is
no state (10_state.md R31). -/
structure Descriptor where
  tag : Tag
  length : Nat
  cycles : Option Nat
  deriving DecidableEq, Repr

/-- The descriptor of an instruction (30_encoding.md R76). -/
def Instr.descriptor (i : Instr) : Descriptor :=
  { tag := i.tag, length := i.length, cycles := i.tag.baseCycles }

/-- The opcode byte of an instruction (30_encoding.md R78, column "opcode"). -/
def Instr.opcode : Instr → Byte
  | .nop => 0x00#8
  | .ldAtBcA => 0x02#8
  | .incBc => 0x03#8
  | .ldBN _ => 0x06#8
  | .ldAAtBc => 0x0A#8
  | .ldCN _ => 0x0E#8
  | .ldAtDeA => 0x12#8
  | .incDe => 0x13#8
  | .ldDN _ => 0x16#8
  | .ldAAtDe => 0x1A#8
  | .ldEN _ => 0x1E#8
  | .jrNz _ => 0x20#8
  | .incHl => 0x23#8
  | .ldHN _ => 0x26#8
  | .jrZ _ => 0x28#8
  | .ldLN _ => 0x2E#8
  | .jrNc _ => 0x30#8
  | .jrC _ => 0x38#8
  | .ldAN _ => 0x3E#8
  | .ldBAtHl => 0x46#8
  | .ldCAtHl => 0x4E#8
  | .ldDAtHl => 0x56#8
  | .ldEAtHl => 0x5E#8
  | .ldHAtHl => 0x66#8
  | .ldLAtHl => 0x6E#8
  | .ldAtHlB => 0x70#8
  | .ldAtHlC => 0x71#8
  | .ldAtHlD => 0x72#8
  | .ldAtHlE => 0x73#8
  | .ldAtHlH => 0x74#8
  | .ldAtHlL => 0x75#8
  | .ldAtHlA => 0x77#8
  | .ldAAtHl => 0x7E#8
  | .xorB => 0xA8#8
  | .xorC => 0xA9#8
  | .xorD => 0xAA#8
  | .xorE => 0xAB#8
  | .xorH => 0xAC#8
  | .xorL => 0xAD#8
  | .xorA => 0xAF#8
  | .jpNn _ => 0xC3#8
  | .rst00 => 0xC7#8
  | .prefixX _ => 0xCB#8
  | .rst08 => 0xCF#8
  | .rst10 => 0xD7#8
  | .rst18 => 0xDF#8
  | .rst20 => 0xE7#8
  | .rst28 => 0xEF#8
  | .rst30 => 0xF7#8
  | .cpN _ => 0xFE#8
  | .rst38 => 0xFF#8

/-- The operand bytes of an instruction, in address order (30_encoding.md R71, R77). -/
def Instr.operandBytes : Instr → List Byte
  | .ldBN n | .ldCN n | .ldDN n | .ldEN n | .ldHN n | .ldLN n | .ldAN n | .cpN n => [n]
  | .jrNz e | .jrZ e | .jrNc e | .jrC e => [e]
  | .prefixX x => [x]
  | .jpNn nn => [Machine.lo8 nn, Machine.hi8 nn]
  | .nop | .ldAtBcA | .incBc | .ldAAtBc | .ldAtDeA | .incDe | .ldAAtDe | .incHl
  | .ldBAtHl | .ldCAtHl | .ldDAtHl | .ldEAtHl | .ldHAtHl | .ldLAtHl
  | .ldAtHlB | .ldAtHlC | .ldAtHlD | .ldAtHlE | .ldAtHlH | .ldAtHlL | .ldAtHlA | .ldAAtHl
  | .xorB | .xorC | .xorD | .xorE | .xorH | .xorL | .xorA
  | .rst00 | .rst08 | .rst10 | .rst18 | .rst20 | .rst28 | .rst30 | .rst38 => []

/-- The operand byte of an instruction that carries one (30_encoding.md R71, formats OP_N8, OP_E8 and CB_X); no handler of
another instruction looks at it. -/
def Instr.byteOperand (i : Instr) : Byte := i.operandBytes.headD 0x00#8

/-- The operand word of an instruction that carries one (30_encoding.md R71, format OP_N16); no handler of another
instruction looks at it. -/
def Instr.wordOperand : Instr → Word
  | .jpNn nn => nn
  | _ => 0x0000#16

/-- The bytes of an instruction, the one at the lowest address first (30_encoding.md R71). -/
def encode (i : Instr) : List Byte := i.opcode :: i.operandBytes

end Sys2Proof
end

