-- ==== Sys2Proof/Machine/Flags.lean ====
section
/-! DEFINITION. The flags: packing (10_state.md R14, R15), the write of all four (R16), the two flag rules of the covered
set (R17) and the conditions that read a flag (40_jumps.md R101). -/

namespace Sys2Proof.Machine

variable {σ : Type}

/-- `Pack()` (10_state.md R14; log entry 11): Z is bit 7, N bit 6, H bit 5, C bit 4, bits 3 to 0 are 0. -/
def Flags.pack (f : Flags) : Byte :=
  (if f.z then 0x80#8 else 0x00#8) ||| (if f.n then 0x40#8 else 0x00#8) |||
    (if f.h then 0x20#8 else 0x00#8) ||| (if f.c then 0x10#8 else 0x00#8)

/-- `Unpack(b)` (10_state.md R15): bits 7 to 4; the low nibble has no effect. -/
def Flags.unpack (b : Byte) : Flags :=
  { z := b.getLsbD 7, n := b.getLsbD 6, h := b.getLsbD 5, c := b.getLsbD 4 }

/-- `SetFlags(z,n,h,c)` overwrites all four at once (10_state.md R16). -/
def CoreOn.setFlags (m : CoreOn σ) (f : Flags) : CoreOn σ := { m with flags := f }

/-- The flags of an 8-bit subtraction a - n whose result is discarded (41_alu.md R120, R133). -/
def compareFlags (a n : Byte) : Flags :=
  { z := decide (a - n = 0#8), n := true, h := decide (lowNibble a < lowNibble n), c := decide (a.toNat < n.toNat) }

/-- The flags of an exclusive or with result v (41_alu.md R121). -/
def xorFlags (v : Byte) : Flags :=
  { z := decide (v = 0#8), n := false, h := false, c := false }

/-- `Cond(cc)` (40_jumps.md R101): one flag has the value the condition asks for (log entry 20). -/
def Flags.holds (f : Flags) : Cond → Bool
  | .nz => !f.z
  | .z => f.z
  | .nc => !f.c
  | .c => f.c

/-- The power-on flags, selected by the header checksum byte (10_state.md R38). -/
def bootFlags (checksum : Byte) : Flags :=
  if checksum = 0#8 then { z := false, n := false, h := false, c := false }
  else { z := false, n := false, h := true, c := true }

end Sys2Proof.Machine
end

