-- ==== Sys2Proof/Machine/Operands.lean ====
section
/-! DEFINITION. The register file's generic accessors and mutators, by selector (10_state.md R11, R12, R18, R19). The
operand forms are: a byte register, a pair view, the byte of memory at the address a pair holds, and the operand bytes an
instruction carries. -/

namespace Sys2Proof.Machine

variable {σ : Type}

/-- `r[x]` (10_state.md R11). -/
def CoreOn.reg (m : CoreOn σ) : RegSel → Byte
  | .a => m.regs.a
  | .b => m.regs.b
  | .c => m.regs.c
  | .d => m.regs.d
  | .e => m.regs.e
  | .h => m.regs.h
  | .l => m.regs.l

/-- `r[x] <- v` replaces all eight bits and touches nothing else (10_state.md R11). -/
def CoreOn.setReg (m : CoreOn σ) (r : RegSel) (v : Byte) : CoreOn σ :=
  match r with
  | .a => { m with regs := { m.regs with a := v } }
  | .b => { m with regs := { m.regs with b := v } }
  | .c => { m with regs := { m.regs with c := v } }
  | .d => { m with regs := { m.regs with d := v } }
  | .e => { m with regs := { m.regs with e := v } }
  | .h => { m with regs := { m.regs with h := v } }
  | .l => { m with regs := { m.regs with l := v } }

/-- `rp[p]` (10_state.md R18): a computed view; the first-named register is the high byte. -/
def CoreOn.pair (m : CoreOn σ) : PairSel → Word
  | .af => cat m.regs.a m.flags.pack
  | .bc => cat m.regs.b m.regs.c
  | .de => cat m.regs.d m.regs.e
  | .hl => cat m.regs.h m.regs.l

/-- `rp[p] <- w` (10_state.md R19): both halves as one operation; AF's low byte goes to the flags. -/
def CoreOn.setPair (m : CoreOn σ) (p : PairSel) (w : Word) : CoreOn σ :=
  match p with
  | .af => (m.setReg .a (hi8 w)).setFlags (Flags.unpack (lo8 w))
  | .bc => (m.setReg .b (hi8 w)).setReg .c (lo8 w)
  | .de => (m.setReg .d (hi8 w)).setReg .e (lo8 w)
  | .hl => (m.setReg .h (hi8 w)).setReg .l (lo8 w)

end Sys2Proof.Machine
end

