-- ==== Sys2Proof/Machine/Ops.lean ====
section
/-! DEFINITION. The named operations of 00_scope.md section 5 that the instructions share: the program counter, fetching,
the push, ending a step in a fault; each on any bus. This core takes no exception in the usual sense: a fault has no
handler, no vector and no saved state, and there is no return from one (60_exceptions.md R205, R210), so `raise` is the
whole of it (log entry 13). -/

namespace Sys2Proof.Machine

variable {σ : Type}

/-- `raise f`: the step ends with the fault and there is no next state (60_exceptions.md R205). -/
def raise {α : Type} (f : Fault) : Host.Outcome α Fault Refusal := .fault f

/-- A step that has produced its state, or raised. -/
def finish {α : Type} (r : Except Fault α) : Host.Outcome α Fault Refusal :=
  match r with
  | .ok s => .next s
  | .error f => raise f

/-- `pc <- target` (10_state.md R24). -/
def CoreOn.setPc (m : CoreOn σ) (target : Word) : CoreOn σ := { m with pc := target }

/-- The write of SP, which only the push uses (10_state.md R27, R34). -/
def CoreOn.setSp (m : CoreOn σ) (w : Word) : CoreOn σ := { m with sp := w }

/-- `PcNext()` (10_state.md R22): the address PC held, and the state with PC one further, modulo 65536. -/
def CoreOn.pcNext (m : CoreOn σ) : Word × CoreOn σ := (m.pc, m.setPc (m.pc + 1#16))

/-- `PcRel(e)` (10_state.md R23): add the sign-extended displacement modulo 65536. -/
def CoreOn.pcRel (m : CoreOn σ) (e : Byte) : CoreOn σ := m.setPc (m.pc + sext16 e)

/-- `Fetch8()` is `MemRead(PcNext(), 1)` (30_encoding.md R73). -/
def CoreOn.fetch8 (m : CoreOn σ) (bus : Bus σ) : Except Fault (Byte × CoreOn σ) :=
  m.pcNext.2.memRead bus m.pcNext.1

/-- `Fetch16()`: low byte first (30_encoding.md R77). -/
def CoreOn.fetch16 (m : CoreOn σ) (bus : Bus σ) : Except Fault (Word × CoreOn σ) :=
  match m.fetch8 bus with
  | .error f => .error f
  | .ok (lo, m1) =>
    match m1.fetch8 bus with
    | .error f => .error f
    | .ok (hi, m2) => .ok (cat hi lo, m2)

/-- `Push16(w)` (10_state.md R28): SP goes down by 2, then the low byte is written at SP and the high byte at SP + 1, in
that order (92_eei_decisions.md D9, D10; log entry 12). -/
def CoreOn.push16 (m : CoreOn σ) (bus : Bus σ) (w : Word) : Except Fault (CoreOn σ) :=
  match (m.setSp (m.sp - 2#16)).memWrite bus (m.sp - 2#16) (lo8 w) with
  | .error f => .error f
  | .ok m1 => m1.memWrite bus (m.sp - 2#16 + 1#16) (hi8 w)

/-- Read the byte at an address and go on with it, or end in the bus's fault. -/
def CoreOn.withByteAt (m : CoreOn σ) (bus : Bus σ) (addr : Word) (k : Byte → CoreOn σ → OutcomeOn σ) : OutcomeOn σ :=
  match m.memRead bus addr with
  | .ok (b, m') => k b m'
  | .error f => raise f

/-- The code of a fault (60_exceptions.md R200, decision D26; the core gives the numbers no meaning). -/
def Fault.code : Fault → Nat
  | .decodePrimary _ _ => 1
  | .decodeExtended _ _ => 2
  | .dispatch _ => 3
  | .addressing _ _ => 4

end Sys2Proof.Machine
end

