-- ==== Sys2Proof/Machine/Alu.lean ====
section
/-! DEFINITION. Arithmetic and logic: CP n, XOR r, INC rr (41_alu.md). -/

namespace Sys2Proof.Machine

variable {σ : Type}

/-- `CP n` (41_alu.md R120): the difference is discarded, all four flags are written. -/
def compareImmediate (n : Byte) (m : CoreOn σ) : OutcomeOn σ := .next (m.setFlags (compareFlags (m.reg .a) n))

/-- `CP n` (41_alu.md R120). -/
def execCpN (n : Byte) (s : State) : Host.Outcome State Fault Refusal := onReference (compareImmediate n) s

/-- `XOR A,r` (41_alu.md R121): both operands are read before A is written. -/
def xorWithA (r : RegSel) (m : CoreOn σ) : OutcomeOn σ :=
  .next ((m.setReg .a (m.reg .a ^^^ m.reg r)).setFlags (xorFlags (m.reg .a ^^^ m.reg r)))

/-- `XOR A,B` (41_alu.md R122). -/
def execXorB (s : State) : Host.Outcome State Fault Refusal := onReference (xorWithA .b) s

/-- `XOR A,C` (41_alu.md R123). -/
def execXorC (s : State) : Host.Outcome State Fault Refusal := onReference (xorWithA .c) s

/-- `XOR A,D` (41_alu.md R124). -/
def execXorD (s : State) : Host.Outcome State Fault Refusal := onReference (xorWithA .d) s

/-- `XOR A,E` (41_alu.md R125). -/
def execXorE (s : State) : Host.Outcome State Fault Refusal := onReference (xorWithA .e) s

/-- `XOR A,H` (41_alu.md R126). -/
def execXorH (s : State) : Host.Outcome State Fault Refusal := onReference (xorWithA .h) s

/-- `XOR A,L` (41_alu.md R127). -/
def execXorL (s : State) : Host.Outcome State Fault Refusal := onReference (xorWithA .l) s

/-- `XOR A,A` (41_alu.md R128). -/
def execXorA (s : State) : Host.Outcome State Fault Refusal := onReference (xorWithA .a) s

/-- `INC rr` (41_alu.md R129): the 16-bit sum modulo 65536, no flag touched. -/
def incrementPair (p : PairSel) (m : CoreOn σ) : OutcomeOn σ := .next (m.setPair p (m.pair p + 1#16))

/-- `INC BC` (41_alu.md R130). -/
def execIncBc (s : State) : Host.Outcome State Fault Refusal := onReference (incrementPair .bc) s

/-- `INC DE` (41_alu.md R131). -/
def execIncDe (s : State) : Host.Outcome State Fault Refusal := onReference (incrementPair .de) s

/-- `INC HL` (41_alu.md R132). -/
def execIncHl (s : State) : Host.Outcome State Fault Refusal := onReference (incrementPair .hl) s

end Sys2Proof.Machine
end

