-- ==== Sys2Proof/Machine/Control.lean ====
section
/-! DEFINITION. NOP and the escape to the extended table (43_nop_prefix.md). -/

namespace Sys2Proof.Machine

variable {σ : Type}

/-- `NOP` (43_nop_prefix.md R180): nothing beyond the fetch. -/
def noOperation (m : CoreOn σ) : OutcomeOn σ := .next m

/-- `NOP` (43_nop_prefix.md R180). -/
def execNop (s : State) : Host.Outcome State Fault Refusal := onReference noOperation s

/-- `PREFIX x` (43_nop_prefix.md R181): the extension byte goes to the extended decoder, which covers none. PC is two past
the escape byte's address a0, which the fault names (60_exceptions.md R202; log entry 13). -/
def escapeTo (x : Byte) (m : CoreOn σ) : OutcomeOn σ :=
  match decodeExtended x with
  | none => raise (.decodeExtended x (m.pc - 2#16))
  | some d => nomatch d

/-- `PREFIX x` (43_nop_prefix.md R181). -/
def execPrefixX (x : Byte) (s : State) : Host.Outcome State Fault Refusal := onReference (escapeTo x) s

end Sys2Proof.Machine
end

