-- ==== Sys2Proof/Machine/Jumps.lean ====
section
/-! DEFINITION. Control transfer: JP nn, JR cc,e, RST v (40_jumps.md). -/

namespace Sys2Proof.Machine

variable {σ : Type}

/-- `JP nn` (40_jumps.md R100): PC gets the operand word. -/
def jumpAbsolute (nn : Word) (m : CoreOn σ) : OutcomeOn σ := .next (m.setPc nn)

/-- `JP nn` (40_jumps.md R100). -/
def execJpNn (nn : Word) (s : State) : Host.Outcome State Fault Refusal := onReference (jumpAbsolute nn) s

/-- `JR cc,e` (40_jumps.md R101): PC is already past the operand byte; if the condition holds, the displacement is added
to it. -/
def jumpRelative (cc : Cond) (e : Byte) (m : CoreOn σ) : OutcomeOn σ :=
  .next (if m.flags.holds cc then m.pcRel e else m)

/-- `JR NZ,e` (40_jumps.md R102). -/
def execJrNz (e : Byte) (s : State) : Host.Outcome State Fault Refusal := onReference (jumpRelative .nz e) s

/-- `JR Z,e` (40_jumps.md R103). -/
def execJrZ (e : Byte) (s : State) : Host.Outcome State Fault Refusal := onReference (jumpRelative .z e) s

/-- `JR NC,e` (40_jumps.md R104). -/
def execJrNc (e : Byte) (s : State) : Host.Outcome State Fault Refusal := onReference (jumpRelative .nc e) s

/-- `JR C,e` (40_jumps.md R105). -/
def execJrC (e : Byte) (s : State) : Host.Outcome State Fault Refusal := onReference (jumpRelative .c e) s

/-- `RST v` (40_jumps.md R106): push the PC held after the opcode fetch, then go to the vector. -/
def restart (bus : Bus σ) (v : Word) (m : CoreOn σ) : OutcomeOn σ :=
  match m.push16 bus m.pc with
  | .ok m' => .next (m'.setPc v)
  | .error f => raise f

/-- `RST 0x00` (40_jumps.md R107). -/
def execRst00 (s : State) : Host.Outcome State Fault Refusal := onReference (restart referenceBus 0x0000#16) s

/-- `RST 0x08` (40_jumps.md R108). -/
def execRst08 (s : State) : Host.Outcome State Fault Refusal := onReference (restart referenceBus 0x0008#16) s

/-- `RST 0x10` (40_jumps.md R109). -/
def execRst10 (s : State) : Host.Outcome State Fault Refusal := onReference (restart referenceBus 0x0010#16) s

/-- `RST 0x18` (40_jumps.md R110). -/
def execRst18 (s : State) : Host.Outcome State Fault Refusal := onReference (restart referenceBus 0x0018#16) s

/-- `RST 0x20` (40_jumps.md R111). -/
def execRst20 (s : State) : Host.Outcome State Fault Refusal := onReference (restart referenceBus 0x0020#16) s

/-- `RST 0x28` (40_jumps.md R112). -/
def execRst28 (s : State) : Host.Outcome State Fault Refusal := onReference (restart referenceBus 0x0028#16) s

/-- `RST 0x30` (40_jumps.md R113). -/
def execRst30 (s : State) : Host.Outcome State Fault Refusal := onReference (restart referenceBus 0x0030#16) s

/-- `RST 0x38` (40_jumps.md R114). -/
def execRst38 (s : State) : Host.Outcome State Fault Refusal := onReference (restart referenceBus 0x0038#16) s

end Sys2Proof.Machine
end

