-- ==== Sys2Proof/Machine/Loads.lean ====
section
/-! DEFINITION. Loads and stores: LD r,n, LD (rr),r, LD r,(rr) (42_loads.md). -/

namespace Sys2Proof.Machine

variable {σ : Type}

/-- `LD r,n` (42_loads.md R140): the operand byte to the register. -/
def loadImmediate (r : RegSel) (n : Byte) (m : CoreOn σ) : OutcomeOn σ := .next (m.setReg r n)

/-- `LD B,n` (42_loads.md R141). -/
def execLdBN (n : Byte) (s : State) : Host.Outcome State Fault Refusal := onReference (loadImmediate .b n) s

/-- `LD C,n` (42_loads.md R142). -/
def execLdCN (n : Byte) (s : State) : Host.Outcome State Fault Refusal := onReference (loadImmediate .c n) s

/-- `LD D,n` (42_loads.md R143). -/
def execLdDN (n : Byte) (s : State) : Host.Outcome State Fault Refusal := onReference (loadImmediate .d n) s

/-- `LD E,n` (42_loads.md R144). -/
def execLdEN (n : Byte) (s : State) : Host.Outcome State Fault Refusal := onReference (loadImmediate .e n) s

/-- `LD H,n` (42_loads.md R145). -/
def execLdHN (n : Byte) (s : State) : Host.Outcome State Fault Refusal := onReference (loadImmediate .h n) s

/-- `LD L,n` (42_loads.md R146). -/
def execLdLN (n : Byte) (s : State) : Host.Outcome State Fault Refusal := onReference (loadImmediate .l n) s

/-- `LD A,n` (42_loads.md R147). -/
def execLdAN (n : Byte) (s : State) : Host.Outcome State Fault Refusal := onReference (loadImmediate .a n) s

/-- `LD (rr),r` (42_loads.md R148): the register to the byte of memory at the address the pair holds. -/
def storeAtPair (bus : Bus σ) (p : PairSel) (r : RegSel) (m : CoreOn σ) : OutcomeOn σ :=
  finish (m.memWrite bus (m.pair p) (m.reg r))

/-- `LD (BC),A` (42_loads.md R149). -/
def execLdAtBcA (s : State) : Host.Outcome State Fault Refusal := onReference (storeAtPair referenceBus .bc .a) s

/-- `LD (DE),A` (42_loads.md R150). -/
def execLdAtDeA (s : State) : Host.Outcome State Fault Refusal := onReference (storeAtPair referenceBus .de .a) s

/-- `LD (HL),B` (42_loads.md R151). -/
def execLdAtHlB (s : State) : Host.Outcome State Fault Refusal := onReference (storeAtPair referenceBus .hl .b) s

/-- `LD (HL),C` (42_loads.md R152). -/
def execLdAtHlC (s : State) : Host.Outcome State Fault Refusal := onReference (storeAtPair referenceBus .hl .c) s

/-- `LD (HL),D` (42_loads.md R153). -/
def execLdAtHlD (s : State) : Host.Outcome State Fault Refusal := onReference (storeAtPair referenceBus .hl .d) s

/-- `LD (HL),E` (42_loads.md R154). -/
def execLdAtHlE (s : State) : Host.Outcome State Fault Refusal := onReference (storeAtPair referenceBus .hl .e) s

/-- `LD (HL),H` (42_loads.md R155). -/
def execLdAtHlH (s : State) : Host.Outcome State Fault Refusal := onReference (storeAtPair referenceBus .hl .h) s

/-- `LD (HL),L` (42_loads.md R156). -/
def execLdAtHlL (s : State) : Host.Outcome State Fault Refusal := onReference (storeAtPair referenceBus .hl .l) s

/-- `LD (HL),A` (42_loads.md R157). -/
def execLdAtHlA (s : State) : Host.Outcome State Fault Refusal := onReference (storeAtPair referenceBus .hl .a) s

/-- `LD r,(rr)` (42_loads.md R160): the address is read before the register is written. -/
def loadFromPair (bus : Bus σ) (r : RegSel) (p : PairSel) (m : CoreOn σ) : OutcomeOn σ :=
  m.withByteAt bus (m.pair p) fun b m' => .next (m'.setReg r b)

/-- `LD A,(BC)` (42_loads.md R161). -/
def execLdAAtBc (s : State) : Host.Outcome State Fault Refusal := onReference (loadFromPair referenceBus .a .bc) s

/-- `LD A,(DE)` (42_loads.md R162). -/
def execLdAAtDe (s : State) : Host.Outcome State Fault Refusal := onReference (loadFromPair referenceBus .a .de) s

/-- `LD B,(HL)` (42_loads.md R163). -/
def execLdBAtHl (s : State) : Host.Outcome State Fault Refusal := onReference (loadFromPair referenceBus .b .hl) s

/-- `LD C,(HL)` (42_loads.md R164). -/
def execLdCAtHl (s : State) : Host.Outcome State Fault Refusal := onReference (loadFromPair referenceBus .c .hl) s

/-- `LD D,(HL)` (42_loads.md R165). -/
def execLdDAtHl (s : State) : Host.Outcome State Fault Refusal := onReference (loadFromPair referenceBus .d .hl) s

/-- `LD E,(HL)` (42_loads.md R166). -/
def execLdEAtHl (s : State) : Host.Outcome State Fault Refusal := onReference (loadFromPair referenceBus .e .hl) s

/-- `LD H,(HL)` (42_loads.md R167). -/
def execLdHAtHl (s : State) : Host.Outcome State Fault Refusal := onReference (loadFromPair referenceBus .h .hl) s

/-- `LD L,(HL)` (42_loads.md R168). -/
def execLdLAtHl (s : State) : Host.Outcome State Fault Refusal := onReference (loadFromPair referenceBus .l .hl) s

/-- `LD A,(HL)` (42_loads.md R169). -/
def execLdAAtHl (s : State) : Host.Outcome State Fault Refusal := onReference (loadFromPair referenceBus .a .hl) s

end Sys2Proof.Machine
end

