-- ==== Sys2Proof/Machine/Dispatch.lean ====
section
/-! DEFINITION. Execute: a total match over the instructions, one meaning each (30_encoding.md R73, R82). PC is the
already-advanced counter when a meaning acts (10_state.md R25). -/

namespace Sys2Proof.Machine

def exec (i : Instr) (s : State) : Host.Outcome State Fault Refusal :=
  match i with
  | .nop => Sys2Proof.Machine.execNop s
  | .ldAtBcA => Sys2Proof.Machine.execLdAtBcA s
  | .incBc => Sys2Proof.Machine.execIncBc s
  | .ldBN n => Sys2Proof.Machine.execLdBN n s
  | .ldAAtBc => Sys2Proof.Machine.execLdAAtBc s
  | .ldCN n => Sys2Proof.Machine.execLdCN n s
  | .ldAtDeA => Sys2Proof.Machine.execLdAtDeA s
  | .incDe => Sys2Proof.Machine.execIncDe s
  | .ldDN n => Sys2Proof.Machine.execLdDN n s
  | .ldAAtDe => Sys2Proof.Machine.execLdAAtDe s
  | .ldEN n => Sys2Proof.Machine.execLdEN n s
  | .jrNz e => Sys2Proof.Machine.execJrNz e s
  | .incHl => Sys2Proof.Machine.execIncHl s
  | .ldHN n => Sys2Proof.Machine.execLdHN n s
  | .jrZ e => Sys2Proof.Machine.execJrZ e s
  | .ldLN n => Sys2Proof.Machine.execLdLN n s
  | .jrNc e => Sys2Proof.Machine.execJrNc e s
  | .jrC e => Sys2Proof.Machine.execJrC e s
  | .ldAN n => Sys2Proof.Machine.execLdAN n s
  | .ldBAtHl => Sys2Proof.Machine.execLdBAtHl s
  | .ldCAtHl => Sys2Proof.Machine.execLdCAtHl s
  | .ldDAtHl => Sys2Proof.Machine.execLdDAtHl s
  | .ldEAtHl => Sys2Proof.Machine.execLdEAtHl s
  | .ldHAtHl => Sys2Proof.Machine.execLdHAtHl s
  | .ldLAtHl => Sys2Proof.Machine.execLdLAtHl s
  | .ldAtHlB => Sys2Proof.Machine.execLdAtHlB s
  | .ldAtHlC => Sys2Proof.Machine.execLdAtHlC s
  | .ldAtHlD => Sys2Proof.Machine.execLdAtHlD s
  | .ldAtHlE => Sys2Proof.Machine.execLdAtHlE s
  | .ldAtHlH => Sys2Proof.Machine.execLdAtHlH s
  | .ldAtHlL => Sys2Proof.Machine.execLdAtHlL s
  | .ldAtHlA => Sys2Proof.Machine.execLdAtHlA s
  | .ldAAtHl => Sys2Proof.Machine.execLdAAtHl s
  | .xorB => Sys2Proof.Machine.execXorB s
  | .xorC => Sys2Proof.Machine.execXorC s
  | .xorD => Sys2Proof.Machine.execXorD s
  | .xorE => Sys2Proof.Machine.execXorE s
  | .xorH => Sys2Proof.Machine.execXorH s
  | .xorL => Sys2Proof.Machine.execXorL s
  | .xorA => Sys2Proof.Machine.execXorA s
  | .jpNn nn => Sys2Proof.Machine.execJpNn nn s
  | .rst00 => Sys2Proof.Machine.execRst00 s
  | .prefixX x => Sys2Proof.Machine.execPrefixX x s
  | .rst08 => Sys2Proof.Machine.execRst08 s
  | .rst10 => Sys2Proof.Machine.execRst10 s
  | .rst18 => Sys2Proof.Machine.execRst18 s
  | .rst20 => Sys2Proof.Machine.execRst20 s
  | .rst28 => Sys2Proof.Machine.execRst28 s
  | .rst30 => Sys2Proof.Machine.execRst30 s
  | .cpN n => Sys2Proof.Machine.execCpN n s
  | .rst38 => Sys2Proof.Machine.execRst38 s

end Sys2Proof.Machine
end

