-- ==== Sys2Proof/Machine/Fetch.lean ====
section
/-! DEFINITION. Fetching and decoding the next instruction (30_encoding.md R73, R74, R77), and placing an instruction's
bytes where they are fetched from. -/

namespace Sys2Proof.Machine

/-- The opcode byte, then DecodePrimary, then the operand bytes the opcode asks for, each through `Fetch8()`
(30_encoding.md R73); the first fault met ends it (60_exceptions.md R207; log entry 14). The state returned has PC already
advanced. -/
def CoreOn.fetchInstr {σ : Type} (m : CoreOn σ) (bus : Bus σ) : Except Fault (Instr × CoreOn σ) :=
  match m.fetch8 bus with
  | .error f => .error f
  | .ok (op, m1) =>
    match decodePrimary op with
    | none => .error (.decodePrimary op m.pc)
    | some (.whole i) => .ok (i, m1)
    | some (.needsByte k) =>
      match m1.fetch8 bus with
      | .error f => .error f
      | .ok (b, m2) => .ok (k b, m2)
    | some (.needsWord k) =>
      match m1.fetch16 bus with
      | .error f => .error f
      | .ok (w, m2) => .ok (k w, m2)

/-- The next instruction on the reference bus. -/
def State.fetchInstr (s : State) : Except Fault (Instr × State) :=
  (s.toCoreOn.fetchInstr referenceBus).map fun p => (p.1, p.2.toState)

/-- Put a byte below the bus, where a read of the address finds it (log entry 24): the loading of a program from outside,
which the core itself cannot do. A place that holds no byte stays as it is. -/
def State.placeByte (s : State) (addr : Word) (v : Byte) : State :=
  match s.bus.route addr with
  | .rom k =>
    if k < s.bus.cart.romSize then
      { s with bus := { s.bus with cart := { s.bus.cart with rom := Memory.write s.bus.cart.rom k v } } }
    else s
  | r => { s with bus := s.bus.store r v }

/-- Put bytes at consecutive addresses, modulo 65536. -/
def State.placeBytes (s : State) (addr : Word) : List Byte → State
  | [] => s
  | b :: bs => State.placeBytes (s.placeByte addr b) (addr + 1#16) bs

end Sys2Proof.Machine
end

