-- ==== Sys2Proof/Machine/Step.lean ====
section
/-! DEFINITION. One step of the core (30_encoding.md R73), and the placing of the next instruction. -/

namespace Sys2Proof.Machine

/-- `Step()` (30_encoding.md R73): fetch and decode, then the meaning; the first fault met ends it. -/
def step (s : State) : Host.Outcome State Fault Refusal :=
  match s.fetchInstr with
  | .ok (i, s') => exec i s'
  | .error f => raise f

/-- `s` with the instruction whose bits are `w` (first byte least significant, cut to `nbits` bits, zero above, three
bytes in all) stored where `step` fetches next. -/
def State.withFetchWord (s : State) (nbits w : Nat) : State :=
  s.placeBytes s.pc [byteOf (w % 2 ^ nbits) 0, byteOf (w % 2 ^ nbits) 1, byteOf (w % 2 ^ nbits) 2]

end Sys2Proof.Machine
end

