-- ==== Sys2Proof/Machine/Boot.lean ====
section
/-! DEFINITION. Reset as the construction of the machine from its inputs (70_reset_and_hazards.md R240), for every value of
the OPEN parameters of 00_scope.md R5. `State.reset` is one of its results. -/

namespace Sys2Proof.Machine

/-- The construction inputs: the ROM image, and the OPEN parameters `SP_RESET`, `CART` and `INIT_MEM` (the initial bytes
of Video RAM, Work RAM and cartridge RAM from the first address of each on). -/
structure BootInputs where
  image : List Byte
  spReset : Word
  config : CartConfig
  initVram : List Byte
  initWram : List Byte
  initCartRam : List Byte
  deriving DecidableEq, Repr

/-- The least image length (70_reset_and_hazards.md R240). -/
def minImageLength : Nat := 0x014E

/-- The image offset of the header checksum (10_state.md R38). -/
def checksumOffset : Nat := 0x014D

/-- `Reset(ROM)` on any bus (70_reset_and_hazards.md R240), given the bus's own state after reset: refused for an image
shorter than 0x014E bytes (60_exceptions.md R219). -/
def constructOn {σ : Type} (image : List Byte) (spReset : Word) (bus : σ) : Except Refusal (CoreOn σ) :=
  if image.length < minImageLength then .error (.shortImage image.length)
  else .ok
    { regs := { a := 0x01#8, b := 0x00#8, c := 0x13#8, d := 0x00#8, e := 0xD8#8, h := 0x01#8, l := 0x4D#8 },
      flags := bootFlags (image.getD checksumOffset 0#8),
      pc := 0x0100#16,
      sp := spReset,
      bus := bus }

/-- The reference platform after reset (70_reset_and_hazards.md R240). -/
def BootInputs.platform (i : BootInputs) : Platform :=
  { vram := Memory.ofBytes 0x8000 (i.initVram.take 0x2000),
    wram := Memory.ofBytes 0xC000 (i.initWram.take 0x2000),
    cart :=
      { config := i.config, rom := Memory.ofBytes 0 i.image, romSize := i.image.length,
        ram := Memory.ofBytes 0 (i.initCartRam.take i.config.ramSize),
        ramEnabled := false, romBank := 1, ramBank := 0 } }

/-- `Reset(ROM)` on the reference platform. -/
def construct (i : BootInputs) : Except Refusal State :=
  (constructOn i.image i.spReset i.platform).map CoreOn.toState

/-- The inputs `State.reset` stands for (log entries 2 to 5): a 32 KB image of zero bytes, no content given to any RAM. -/
def BootInputs.reset : BootInputs :=
  { image := List.replicate Params.romSize 0x00#8, spReset := Params.spReset, config := Params.cartConfig,
    initVram := [], initWram := [], initCartRam := [] }

end Sys2Proof.Machine
end

