-- ==== Sys2Proof/Machine/OnBus.lean ====
section
/-! DEFINITION. The core on any bus: the dispatch by operation tag (30_encoding.md R73, R82) and the step, with the bus as an
argument (00_scope.md R4, R5; 92_eei_decisions.md D27). `exec` and `step` are these on the reference bus. -/

namespace Sys2Proof.Machine

variable {σ : Type}

/-- `Execute(d)` (30_encoding.md R73, R82): the handler of the tag, with the operand the instruction carries. -/
def execTag (bus : Bus σ) (t : Tag) (n : Byte) (nn : Word) (m : CoreOn σ) : OutcomeOn σ :=
  match t with
  | .nop => noOperation m
  | .jpNn => jumpAbsolute nn m
  | .jrCc cc => jumpRelative cc n m
  | .cpN => compareImmediate n m
  | .incRr rr => incrementPair rr m
  | .xorR r => xorWithA r m
  | .rst v => restart bus v m
  | .stRrR rr r => storeAtPair bus rr r m
  | .ldRRr r rr => loadFromPair bus r rr m
  | .ldRN r => loadImmediate r n m
  | .escape => escapeTo n m

/-- The meaning of an instruction on a bus. -/
def execOn (bus : Bus σ) (i : Instr) (m : CoreOn σ) : OutcomeOn σ := execTag bus i.tag i.byteOperand i.wordOperand m

/-- `Step()` on a bus (30_encoding.md R73): fetch and decode, then the meaning; the first fault met ends it. -/
def stepOn (bus : Bus σ) (m : CoreOn σ) : OutcomeOn σ :=
  match m.fetchInstr bus with
  | .ok (i, m') => execOn bus i m'
  | .error f => raise f

end Sys2Proof.Machine
end

