-- ==== Sys2Proof/Safety.lean ====
section
/-! DEFINITION. The words claims are stated in: the machine's invariant, the bytes found at an address, reachable states
and safe runs. -/

namespace Sys2Proof.Machine

/-- What holds of every state a run reaches: each store is canonical and lists only addresses it has
(20_memory.md R46, R51), the image has its least length (70_reset_and_hazards.md R240), and the ROM bank index is one the
select can give (R53; the RAM bank index is 0 to 3 by its type). -/
structure State.Inv (s : State) : Prop where
  vram_wf : Memory.wf s.bus.vram = true
  wram_wf : Memory.wf s.bus.wram = true
  rom_wf : Memory.wf s.bus.cart.rom = true
  ram_wf : Memory.wf s.bus.cart.ram = true
  vram_within : Memory.within 0x8000 0xA000 s.bus.vram = true
  wram_within : Memory.within 0xC000 0xE000 s.bus.wram = true
  rom_within : Memory.within 0 s.bus.cart.romSize s.bus.cart.rom = true
  ram_within : Memory.within 0 s.bus.cart.config.ramSize s.bus.cart.ram = true
  image_length : minImageLength ≤ s.bus.cart.romSize
  rom_bank_masked : s.bus.cart.romBank = 1 ∨ s.bus.cart.romBank < 2 ^ s.bus.cart.config.romBankBits
  rom_bank_one_based : s.bus.cart.config.coerceBeforeMask = false → 1 ≤ s.bus.cart.romBank

/-- A bus raises AddressingFault on an access of this kind at this address, in this state of its own (20_memory.md R41). -/
def Bus.Refuses {σ : Type} (bus : Bus σ) : Access → σ → Word → Prop
  | .read, q, addr => bus.read q addr = none
  | .write, q, addr => ∃ v, bus.write q addr v = none

/-- The bytes found by reading consecutive addresses, modulo 65536, from `addr` on. -/
def State.bytesAt (s : State) (addr : Word) : List Byte → Prop
  | [] => True
  | b :: bs => s.busRead addr = .ok b ∧ State.bytesAt s (addr + 1#16) bs

/-- The states of a run: those construction gives, for any inputs, and those a step leads to
(70_reset_and_hazards.md R250). -/
inductive Reachable : State → Prop where
  | boot (i : BootInputs) (s : State) (h : construct i = .ok s) : Reachable s
  | step (s t : State) (h : Reachable s) (hs : Sys2Proof.Machine.step s = .next t) : Reachable t

/-- A run of `k` steps ends in a state: none of them faulted or was refused (60_exceptions.md R205). -/
def SafeFor (k : Nat) (s : State) : Prop := ∃ t, Sys2Proof.core.run k s = .next t

end Sys2Proof.Machine
end

