-- ==== Sys2Proof/Certificates/Slice0/Obligations.lean ====
section
/-! DEFINITION. The statements about the model, each from a rule or section of the spec. The opcode bytes in them are those
of 30_encoding.md R78, which the spec takes from general knowledge by its decision D2 (log entry 10); that an unwired address
faults is its decision D6 (log entry 8). -/

namespace Sys2Proof.Claims

open Sys2Proof.Machine

/-- XOR A,r (30_encoding.md R78): opcode, instruction, source register. -/
def xorForms : List (Byte × Instr × RegSel) :=
  [(0xA8#8, .xorB, .b), (0xA9#8, .xorC, .c), (0xAA#8, .xorD, .d), (0xAB#8, .xorE, .e), (0xAC#8, .xorH, .h),
   (0xAD#8, .xorL, .l), (0xAF#8, .xorA, .a)]

/-- INC rr (30_encoding.md R78): opcode, instruction, the registers that are the pair's high and low byte. -/
def incForms : List (Byte × Instr × RegSel × RegSel) :=
  [(0x03#8, .incBc, .b, .c), (0x13#8, .incDe, .d, .e), (0x23#8, .incHl, .h, .l)]

/-- LD r,n (30_encoding.md R78): opcode, instruction by operand byte, destination. -/
def immediateForms : List (Byte × (Byte → Instr) × RegSel) :=
  [(0x06#8, .ldBN, .b), (0x0E#8, .ldCN, .c), (0x16#8, .ldDN, .d), (0x1E#8, .ldEN, .e), (0x26#8, .ldHN, .h),
   (0x2E#8, .ldLN, .l), (0x3E#8, .ldAN, .a)]

/-- JR cc,e (30_encoding.md R78, 40_jumps.md R101): opcode, instruction by operand byte, when the jump is taken. -/
def jumpForms : List (Byte × (Byte → Instr) × (Flags → Bool)) :=
  [(0x20#8, .jrNz, fun f => f.z == false), (0x28#8, .jrZ, fun f => f.z == true),
   (0x30#8, .jrNc, fun f => f.c == false), (0x38#8, .jrC, fun f => f.c == true)]

/-- RST v (30_encoding.md R78): opcode, instruction, vector. -/
def restartForms : List (Byte × Instr × Word) :=
  [(0xC7#8, .rst00, 0x0000#16), (0xCF#8, .rst08, 0x0008#16), (0xD7#8, .rst10, 0x0010#16),
   (0xDF#8, .rst18, 0x0018#16), (0xE7#8, .rst20, 0x0020#16), (0xEF#8, .rst28, 0x0028#16),
   (0xF7#8, .rst30, 0x0030#16), (0xFF#8, .rst38, 0x0038#16)]

/-- LD (rr),r (30_encoding.md R78): opcode, instruction, address pair, source. -/
def storeForms : List (Byte × Instr × PairSel × RegSel) :=
  [(0x02#8, .ldAtBcA, .bc, .a), (0x12#8, .ldAtDeA, .de, .a), (0x70#8, .ldAtHlB, .hl, .b), (0x71#8, .ldAtHlC, .hl, .c),
   (0x72#8, .ldAtHlD, .hl, .d), (0x73#8, .ldAtHlE, .hl, .e), (0x74#8, .ldAtHlH, .hl, .h), (0x75#8, .ldAtHlL, .hl, .l),
   (0x77#8, .ldAtHlA, .hl, .a)]

/-- LD r,(rr) (30_encoding.md R78): opcode, instruction, address pair, destination. -/
def loadForms : List (Byte × Instr × PairSel × RegSel) :=
  [(0x0A#8, .ldAAtBc, .bc, .a), (0x1A#8, .ldAAtDe, .de, .a), (0x46#8, .ldBAtHl, .hl, .b), (0x4E#8, .ldCAtHl, .hl, .c),
   (0x56#8, .ldDAtHl, .hl, .d), (0x5E#8, .ldEAtHl, .hl, .e), (0x66#8, .ldHAtHl, .hl, .h), (0x6E#8, .ldLAtHl, .hl, .l),
   (0x7E#8, .ldAAtHl, .hl, .a)]

/-- `from lo to hi`, both ends included. -/
def span (lo hi : Nat) : List Nat := List.range' lo (hi + 1 - lo)

/-- The uncovered opcode values as 30_encoding.md R79 lists them (the covered set is the spec's decision D3, log
entry 27). -/
def uncoveredOpcodes : List Nat :=
  [0x01, 0x04, 0x05, 0x07, 0x08, 0x09, 0x0B, 0x0C, 0x0D, 0x0F] ++
  [0x10, 0x11, 0x14, 0x15, 0x17, 0x18, 0x19, 0x1B, 0x1C, 0x1D, 0x1F] ++
  [0x21, 0x22, 0x24, 0x25, 0x27, 0x29, 0x2A, 0x2B, 0x2C, 0x2D, 0x2F] ++
  span 0x31 0x37 ++ span 0x39 0x3D ++ [0x3F] ++
  span 0x40 0x45 ++ span 0x47 0x4D ++ [0x4F] ++
  span 0x50 0x55 ++ span 0x57 0x5D ++ [0x5F] ++
  span 0x60 0x65 ++ span 0x67 0x6D ++ [0x6F] ++
  [0x76] ++ span 0x78 0x7D ++ [0x7F] ++ span 0x80 0xA7 ++ [0xAE] ++ span 0xB0 0xC2 ++
  [0xC4, 0xC5, 0xC6, 0xC8, 0xC9, 0xCA, 0xCC, 0xCD, 0xCE] ++
  span 0xD0 0xD6 ++ span 0xD8 0xDE ++ span 0xE0 0xE6 ++ span 0xE8 0xEE ++ span 0xF0 0xF6 ++ span 0xF8 0xFD

/-- An instruction with opcode `op` whose first operand address is unwired raises AddressingFault(a0 + 1). -/
def OperandFetchFaults (op : Byte) : Prop :=
  ∀ s : State, s.busRead s.pc = .ok op → 0xE000 ≤ (s.pc + 1#16).toNat →
    step s = .fault (.addressing .read (s.pc + 1#16))

/-- Video RAM or Work RAM (20_memory.md R46, R50). -/
def PlainRam (addr : Word) : Prop :=
  (0x8000 ≤ addr.toNat ∧ addr.toNat < 0xA000) ∨ (0xC000 ≤ addr.toNat ∧ addr.toNat < 0xE000)

/-- The instruction is a restart. -/
def isRestart (i : Instr) : Bool := restartForms.any fun f => f.2.1 == i

/-- The instruction is a store through a pair. -/
def isStore (i : Instr) : Bool := storeForms.any fun f => f.2.1 == i

/-- The instruction is a load through a pair. -/
def isLoad (i : Instr) : Bool := loadForms.any fun f => f.2.1 == i

/-- The instruction writes flags: CP n or XOR A,r (10_state.md R17). -/
def writesFlags : Instr → Bool
  | .cpN _ => true
  | i => xorForms.any fun f => f.2.1 == i

/-- The byte registers an instruction may write (10_state.md R11, the table). -/
def writtenRegs : Instr → List RegSel
  | .xorB | .xorC | .xorD | .xorE | .xorH | .xorL | .xorA | .ldAN _ | .ldAAtBc | .ldAAtDe | .ldAAtHl => [.a]
  | .ldBN _ | .ldBAtHl => [.b]
  | .ldCN _ | .ldCAtHl => [.c]
  | .ldDN _ | .ldDAtHl => [.d]
  | .ldEN _ | .ldEAtHl => [.e]
  | .ldHN _ | .ldHAtHl => [.h]
  | .ldLN _ | .ldLAtHl => [.l]
  | .incBc => [.b, .c]
  | .incDe => [.d, .e]
  | .incHl => [.h, .l]
  | _ => []

/-- PC after the step, from the opcode's address and the flags before (10_state.md R25, the table); `none` for PREFIX,
whose step faults. -/
def pcAfter (i : Instr) (f : Flags) (a0 : Word) : Option Word :=
  match i with
  | .jpNn nn => some nn
  | .jrNz e => some (if f.z = false then a0 + 2#16 + e.signExtend 16 else a0 + 2#16)
  | .jrZ e => some (if f.z = true then a0 + 2#16 + e.signExtend 16 else a0 + 2#16)
  | .jrNc e => some (if f.c = false then a0 + 2#16 + e.signExtend 16 else a0 + 2#16)
  | .jrC e => some (if f.c = true then a0 + 2#16 + e.signExtend 16 else a0 + 2#16)
  | .rst00 => some 0x0000#16
  | .rst08 => some 0x0008#16
  | .rst10 => some 0x0010#16
  | .rst18 => some 0x0018#16
  | .rst20 => some 0x0020#16
  | .rst28 => some 0x0028#16
  | .rst30 => some 0x0030#16
  | .rst38 => some 0x0038#16
  | .prefixX _ => none
  | .ldBN _ | .ldCN _ | .ldDN _ | .ldEN _ | .ldHN _ | .ldLN _ | .ldAN _ | .cpN _ => some (a0 + 2#16)
  | _ => some (a0 + 1#16)

/-- How many of the first `k` steps from `s` execute a restart. -/
def restartsIn : Nat → State → Nat
  | 0, _ => 0
  | k + 1, s =>
    match s.fetchInstr, step s with
    | .ok (i, _), .next t => (if isRestart i then 1 else 0) + restartsIn k t
    | _, _ => 0

/-- Two states that differ at most in the flags N and H. -/
def SameButNH (s t : State) : Prop := t = { s with flags := { s.flags with n := t.flags.n, h := t.flags.h } }

/-- Two outcomes that differ at most in the flags N and H of the next state. -/
def OutcomesSameButNH : Host.Outcome State Fault Refusal → Host.Outcome State Fault Refusal → Prop
  | .next s, .next t => SameButNH s t
  | .fault f, .fault g => f = g
  | .refused r, .refused q => r = q
  | _, _ => False

/-- One bus access of the core. -/
inductive Event where
  | read (addr : Word)
  | write (addr : Word) (v : Byte)
  deriving DecidableEq, Repr

/-- A bus that does what another does and keeps a list of the accesses it answered, oldest first. -/
def recording {σ : Type} (bus : Bus σ) : Bus (σ × List Event) :=
  { read := fun q a => (bus.read q.1 a).map fun r => (r.1, (r.2, q.2 ++ [.read a])),
    write := fun q a v => (bus.write q.1 a v).map fun r => (r, q.2 ++ [.write a v]) }

/-- The same core on another bus state. -/
def onto {σ τ : Type} (m : CoreOn σ) (q : τ) : CoreOn τ :=
  { regs := m.regs, flags := m.flags, pc := m.pc, sp := m.sp, bus := q }

/-- The table of 20_memory.md section 1: the accesses of an instruction in issue order, from the state before the step. -/
def tableAccesses {σ : Type} (i : Instr) (m : CoreOn σ) : List Event :=
  (List.range i.length).map (fun k => .read (m.pc + BitVec.ofNat 16 k)) ++
  (loadForms.filter fun f => f.2.1 == i).map (fun f => .read (m.pair f.2.2.1)) ++
  (storeForms.filter fun f => f.2.1 == i).map (fun f => .write (m.pair f.2.2.1) (m.reg f.2.2.2)) ++
  (if isRestart i then
    [.write (m.sp - 2#16) (BitVec.ofNat 8 ((m.pc + 1#16).toNat % 256)),
     .write (m.sp - 1#16) (BitVec.ofNat 8 ((m.pc + 1#16).toNat / 256))]
   else [])

end Sys2Proof.Claims

open Sys2Proof Sys2Proof.Machine Sys2Proof.Claims

/-! ### The step -/

/-- 30_encoding.md section 1, 10_state.md R25: when the bytes from PC on are an instruction, the step is that instruction's
meaning with PC moved past its bytes. -/
def Obligations.StepRunsTheDecodedInstruction : Prop :=
  ∀ (s : State) (i : Instr) (bs : List Byte), decode bs = .ok (i, []) → s.bytesAt s.pc bs →
    step s = exec i { s with pc := s.pc + BitVec.ofNat 16 bs.length }

/-- 60_exceptions.md R201, 30_encoding.md R79. -/
def Obligations.UncoveredOpcodeRaisesDecodeFault : Prop :=
  uncoveredOpcodes.length = 205 ∧
  ∀ (s : State) (op : Byte), s.busRead s.pc = .ok op → op.toNat ∈ uncoveredOpcodes →
    step s = .fault (.decodePrimary op s.pc)

/-- 60_exceptions.md R207 (1), the spec's decision D22 (log entry 18): an opcode fetch at an unwired address
faults, whatever would be found there. -/
def Obligations.UnwiredOpcodeFetchFaultsFirst : Prop :=
  ∀ s : State, 0xE000 ≤ s.pc.toNat → step s = .fault (.addressing .read s.pc)

/-- 60_exceptions.md R200, R203, R217, R205: every fault of a step is one of the listed ones, for its listed cause; a step is
never refused. -/
def Obligations.StepFaultsOnlyForTheListedCauses : Prop :=
  (∀ (s : State) (f : Fault), step s = .fault f →
    (∃ op : Byte, s.busRead s.pc = .ok op ∧ op.toNat ∈ uncoveredOpcodes ∧ f = .decodePrimary op s.pc) ∨
    (∃ x : Byte, s.bytesAt s.pc [0xCB#8, x] ∧ f = .decodeExtended x s.pc) ∨
    (∃ (k : Access) (a : Word), 0xE000 ≤ a.toNat ∧ f = .addressing k a)) ∧
  (∀ (s : State) (t : Tag), step s ≠ .fault (.dispatch t)) ∧
  (∀ (s : State) (r : Refusal), step s ≠ .refused r)

/-- 10_state.md R25: PC after a step, by instruction. -/
def Obligations.PcAfterAStepFollowsTheTable : Prop :=
  ∀ (s t : State) (i : Instr) (bs : List Byte), decode bs = .ok (i, []) → s.bytesAt s.pc bs → step s = .next t →
    pcAfter i s.flags s.pc = some t.pc

/-! ### Encoding -/

/-- 30_encoding.md section 2 and 4: decoding an encoded instruction gives it back with every operand, whatever follows. -/
def Obligations.DecodeInvertsEncode : Prop :=
  ∀ (i : Instr) (rest : List Byte), decode (encode i ++ rest) = .ok (i, rest)

/-- 30_encoding.md section 2 and 4: the bytes an instruction was decoded from are its encoding; no other bytes decode to
it. -/
def Obligations.EncodeInvertsDecode : Prop :=
  ∀ (bs rest : List Byte) (i : Instr), decode bs = .ok (i, rest) → bs = encode i ++ rest

/-- 30_encoding.md R78, R71: words written out from the opcode map, first byte least significant. -/
def Obligations.TableWordsDecode : Prop :=
  decodeTableWord 8 0x00 = some .nop ∧ decodeTableWord 16 0x5A3E = some (.ldAN 0x5A#8) ∧
  decodeTableWord 24 0x0150C3 = some (.jpNn 0x0150#16) ∧ decodeTableWord 16 0xF820 = some (.jrNz 0xF8#8) ∧
  decodeTableWord 8 0xEF = some .rst28 ∧ decodeTableWord 8 0x77 = some .ldAtHlA ∧
  decodeTableWord 8 0x7E = some .ldAAtHl ∧ decodeTableWord 8 0x23 = some .incHl ∧
  decodeTableWord 8 0xAF = some .xorA ∧ decodeTableWord 16 0x80FE = some (.cpN 0x80#8) ∧
  decodeTableWord 16 0x37CB = some (.prefixX 0x37#8) ∧ decodeTableWord 8 0xD3 = none

/-! ### NOP, the escape, control transfer -/

/-- 43_nop_prefix.md R180; that nothing else changes is the spec's decision D20 (log entry 17). -/
def Obligations.NopOnlyAdvancesThePc : Prop :=
  (∀ rest : List Byte, decode (0x00#8 :: rest) = .ok (.nop, rest)) ∧
  ∀ s : State, exec .nop s = .next s

/-- 43_nop_prefix.md R181, 60_exceptions.md R202, the spec's decision D5 (log entry 16): the escape faults for every extension
byte, and for an unwired one with the bus's fault. -/
def Obligations.EscapeFaultsForEveryExtensionByte : Prop :=
  (∀ (x : Byte) (rest : List Byte), decode (0xCB#8 :: x :: rest) = .ok (.prefixX x, rest)) ∧
  (∀ (x : Byte) (s : State), exec (.prefixX x) s = .fault (.decodeExtended x (s.pc - 2#16))) ∧
  (∀ (x : Byte) (s : State), s.bytesAt s.pc [0xCB#8, x] → step s = .fault (.decodeExtended x s.pc)) ∧
  OperandFetchFaults 0xCB#8

/-- 40_jumps.md R100. -/
def Obligations.AbsoluteJumpSetsThePc : Prop :=
  (∀ (lo hi : Byte) (rest : List Byte), ∃ nn : Word, nn.toNat = hi.toNat * 256 + lo.toNat ∧
    decode (0xC3#8 :: lo :: hi :: rest) = .ok (.jpNn nn, rest)) ∧
  (∀ (nn : Word) (s : State), exec (.jpNn nn) s = .next { s with pc := nn }) ∧
  OperandFetchFaults 0xC3#8 ∧
  ∀ s : State, s.busRead s.pc = .ok 0xC3#8 → (s.pc + 1#16).toNat < 0xE000 → 0xE000 ≤ (s.pc + 2#16).toNat →
    step s = .fault (.addressing .read (s.pc + 2#16))

/-- 40_jumps.md R101 to R105, 10_state.md R23; what each opcode's condition is, is the spec's decision D4 (log entry 20). -/
def Obligations.ConditionalJumpAddsTheSignedDisplacement : Prop :=
  ∀ f ∈ jumpForms,
    (∀ (e : Byte) (rest : List Byte), decode (f.1 :: e :: rest) = .ok (f.2.1 e, rest)) ∧
    OperandFetchFaults f.1 ∧
    ∀ (e : Byte) (s : State), ∃ t : State, exec (f.2.1 e) s = .next t ∧ t = { s with pc := t.pc } ∧
      (f.2.2 s.flags = true → (t.pc.toNat : Int) = ((s.pc.toNat : Int) + e.toInt) % 65536) ∧
      (f.2.2 s.flags = false → t.pc = s.pc)

/-- 40_jumps.md R106 to R114: the push hands the low byte and then the high byte to the bus (that order is the spec's
decision D9, log entry 12); a push into unwired space faults,
low byte first; everything but the two pushed bytes, SP and PC (and, for a push into the ROM range, the cartridge's control
fields) stays. -/
def Obligations.RestartPushesAndGoesToItsVector : Prop :=
  ∀ f ∈ restartForms,
    (∀ rest : List Byte, decode (f.1 :: rest) = .ok (f.2.1, rest)) ∧
    (∀ s : State, (s.sp - 2#16).toNat < 0xE000 → (s.sp - 1#16).toNat < 0xE000 →
      ∃ s1 s2 : State,
        State.busWrite { s with sp := s.sp - 2#16 } (s.sp - 2#16) (BitVec.ofNat 8 (s.pc.toNat % 256)) = .ok s1 ∧
        s1.busWrite (s.sp - 1#16) (BitVec.ofNat 8 (s.pc.toNat / 256)) = .ok s2 ∧
        exec f.2.1 s = .next { s2 with pc := f.2.2 } ∧
        s2.sp = s.sp - 2#16 ∧ s2.regs = s.regs ∧ s2.flags = s.flags ∧
        ∀ q : Route, q ≠ s.bus.route (s.sp - 2#16) → q ≠ s1.bus.route (s.sp - 1#16) → s2.bus.load q = s.bus.load q) ∧
    (∀ s : State, 0xE000 ≤ (s.sp - 2#16).toNat → exec f.2.1 s = .fault (.addressing .write (s.sp - 2#16))) ∧
    (∀ s : State, (s.sp - 2#16).toNat < 0xE000 → 0xE000 ≤ (s.sp - 1#16).toNat →
      exec f.2.1 s = .fault (.addressing .write (s.sp - 1#16)))

/-- 10_state.md R28, 95_test_vectors.md S7: after a restart whose stack bytes lie in Video or Work RAM, reading them back
reconstructs the counter the handler held, SP is 2 lower, and every other address reads as before. -/
def Obligations.RestartStackReadsBack : Prop :=
  ∀ f ∈ restartForms, ∀ s : State, s.Inv → PlainRam (s.sp - 2#16) → PlainRam (s.sp - 1#16) →
    ∃ t : State, exec f.2.1 s = .next t ∧ t.pc = f.2.2 ∧ t.sp = s.sp - 2#16 ∧
      (∃ lo hi : Byte, t.busRead t.sp = .ok lo ∧ t.busRead (t.sp + 1#16) = .ok hi ∧
        hi.toNat * 256 + lo.toNat = s.pc.toNat) ∧
      (∀ a : Word, a ≠ t.sp → a ≠ t.sp + 1#16 → t.busRead a = s.busRead a) ∧
      t = { s with pc := t.pc, sp := t.sp, bus := { s.bus with vram := t.bus.vram, wram := t.bus.wram } }

/-! ### Arithmetic and logic -/

/-- 41_alu.md R120. -/
def Obligations.CompareWritesAllFourFlags : Prop :=
  (∀ (n : Byte) (rest : List Byte), decode (0xFE#8 :: n :: rest) = .ok (.cpN n, rest)) ∧
  OperandFetchFaults 0xFE#8 ∧
  ∀ (n : Byte) (s : State), ∃ t : State, exec (.cpN n) s = .next t ∧ t = { s with flags := t.flags } ∧
    (t.flags.z = true ↔ (s.regs.a.toNat + 256 - n.toNat) % 256 = 0) ∧
    (t.flags.z = true ↔ s.regs.a = n) ∧
    t.flags.n = true ∧
    (t.flags.h = true ↔ s.regs.a.toNat % 16 < n.toNat % 16) ∧
    (t.flags.c = true ↔ s.regs.a.toNat < n.toNat) ∧
    ¬(t.flags.z = true ∧ t.flags.c = true)

/-- 41_alu.md R121 to R128. -/
def Obligations.XorWritesAAndAllFourFlags : Prop :=
  (∀ f ∈ xorForms,
    (∀ rest : List Byte, decode (f.1 :: rest) = .ok (f.2.1, rest)) ∧
    ∀ s : State, exec f.2.1 s = .next { s with
      regs := { s.regs with a := s.regs.a ^^^ s.reg f.2.2 },
      flags := { z := decide (s.regs.a = s.reg f.2.2), n := false, h := false, c := false } }) ∧
  ∀ s : State, exec .xorA s = .next { s with
    regs := { s.regs with a := 0x00#8 }, flags := { z := true, n := false, h := false, c := false } }

/-- 41_alu.md R129 to R132: the pair as a number goes up by one modulo 65536 and nothing else changes, no flag among it. -/
def Obligations.PairIncrementWrapsAndTouchesNoFlag : Prop :=
  ∀ f ∈ incForms,
    (∀ rest : List Byte, decode (f.1 :: rest) = .ok (f.2.1, rest)) ∧
    ∀ s : State, ∃ t : State, exec f.2.1 s = .next t ∧
      (t.reg f.2.2.1).toNat * 256 + (t.reg f.2.2.2).toNat =
        ((s.reg f.2.2.1).toNat * 256 + (s.reg f.2.2.2).toNat + 1) % 65536 ∧
      (∀ r : RegSel, r ≠ f.2.2.1 → r ≠ f.2.2.2 → t.reg r = s.reg r) ∧
      t = { s with regs := t.regs }

/-! ### Loads and stores -/

/-- 42_loads.md R140 to R147. -/
def Obligations.LoadImmediateWritesOneRegister : Prop :=
  ∀ f ∈ immediateForms,
    (∀ (n : Byte) (rest : List Byte), decode (f.1 :: n :: rest) = .ok (f.2.1 n, rest)) ∧
    OperandFetchFaults f.1 ∧
    ∀ (n : Byte) (s : State), ∃ t : State, exec (f.2.1 n) s = .next t ∧ t.reg f.2.2 = n ∧
      (∀ r : RegSel, r ≠ f.2.2 → t.reg r = s.reg r) ∧ t = { s with regs := t.regs }

/-- 42_loads.md R148 to R157: at every wired address the store completes, with the state the bus write gives; no register,
flag, PC or SP changes and every place but the one the address is routed to answers the byte it answered; at an unwired
address it faults. -/
def Obligations.StoreHandsTheRegisterToTheBus : Prop :=
  ∀ f ∈ storeForms,
    (∀ rest : List Byte, decode (f.1 :: rest) = .ok (f.2.1, rest)) ∧
    (∀ s : State, (s.pair f.2.2.1).toNat < 0xE000 →
      ∃ t : State, exec f.2.1 s = .next t ∧ s.busWrite (s.pair f.2.2.1) (s.reg f.2.2.2) = .ok t ∧
        t = { s with bus := t.bus } ∧
        ∀ q : Route, q ≠ s.bus.route (s.pair f.2.2.1) → t.bus.load q = s.bus.load q) ∧
    (∀ s : State, 0xE000 ≤ (s.pair f.2.2.1).toNat →
      exec f.2.1 s = .fault (.addressing .write (s.pair f.2.2.1)))

/-- 42_loads.md section 2, 20_memory.md R50: a store to Video or Work RAM is read back, every other address reads as before,
and nothing but those two stores' contents may change. -/
def Obligations.StoreToPlainRamReadsBack : Prop :=
  ∀ f ∈ storeForms, ∀ s : State, s.Inv → PlainRam (s.pair f.2.2.1) →
    ∃ t : State, exec f.2.1 s = .next t ∧ t.busRead (s.pair f.2.2.1) = .ok (s.reg f.2.2.2) ∧
      (∀ a : Word, a ≠ s.pair f.2.2.1 → t.busRead a = s.busRead a) ∧
      t = { s with bus := { s.bus with vram := t.bus.vram, wram := t.bus.wram } }

/-- 42_loads.md R160 to R169: the address is the pair's value before the step, the byte the bus answers goes to the register,
nothing else changes; at an unwired address the load faults. -/
def Obligations.LoadTakesTheByteFromTheBus : Prop :=
  ∀ f ∈ loadForms,
    (∀ rest : List Byte, decode (f.1 :: rest) = .ok (f.2.1, rest)) ∧
    (∀ s : State, (s.pair f.2.2.1).toNat < 0xE000 →
      ∃ (b : Byte) (t : State), s.busRead (s.pair f.2.2.1) = .ok b ∧ exec f.2.1 s = .next t ∧
        t.reg f.2.2.2 = b ∧ (∀ r : RegSel, r ≠ f.2.2.2 → t.reg r = s.reg r) ∧ t = { s with regs := t.regs }) ∧
    (∀ s : State, 0xE000 ≤ (s.pair f.2.2.1).toNat →
      exec f.2.1 s = .fault (.addressing .read (s.pair f.2.2.1)))

/-! ### The whole machine -/

/-- 10_state.md R17, the table: an instruction that is neither CP n nor XOR A,r leaves all four flags. -/
def Obligations.OnlyCompareAndXorChangeFlags : Prop :=
  ∀ (i : Instr) (s t : State), exec i s = .next t → writesFlags i = false → t.flags = s.flags

/-- 10_state.md R11, the table: a byte register the table does not list for the instruction keeps its value. -/
def Obligations.RegistersChangeOnlyAsTheTableLists : Prop :=
  ∀ (i : Instr) (s t : State), exec i s = .next t → ∀ r : RegSel, r ∉ writtenRegs i → t.reg r = s.reg r

/-- 20_memory.md R42, the table: an instruction that is neither a store nor a restart changes no byte of any store and
nothing of the cartridge, so every address reads as before. -/
def Obligations.OnlyStoresAndRestartsReachMemory : Prop :=
  ∀ (i : Instr) (s t : State), exec i s = .next t → isStore i = false → isRestart i = false →
    t.bus.vram = s.bus.vram ∧ t.bus.wram = s.bus.wram ∧ t.bus.cart = s.bus.cart ∧ ∀ a : Word, t.busRead a = s.busRead a

/-- 10_state.md R34: only a restart changes SP, by a push; so SP is `SP_RESET` less twice the restarts executed. -/
def Obligations.StackPointerCountsRestarts : Prop :=
  (∀ (i : Instr) (s t : State), exec i s = .next t →
    t.sp = if isRestart i then s.sp - 2#16 else s.sp) ∧
  ∀ (b : BootInputs) (s t : State) (k : Nat), construct b = .ok s → Sys2Proof.core.run k s = .next t →
    t.sp = b.spReset - BitVec.ofNat 16 (2 * restartsIn k s)

/-- 20_memory.md R51: no run changes a byte of the ROM image, its length or the controller's parameters. -/
def Obligations.RunsNeverChangeTheRomImage : Prop :=
  ∀ (k : Nat) (s t : State), Sys2Proof.core.run k s = .next t →
    t.bus.cart.rom = s.bus.cart.rom ∧ t.bus.cart.romSize = s.bus.cart.romSize ∧ t.bus.cart.config = s.bus.cart.config

/-- The invariant of every run (20_memory.md section 4 and 5): a step from a state that meets it leads to one that does. -/
def Obligations.StepKeepsTheInvariant : Prop :=
  ∀ s t : State, s.Inv → step s = .next t → t.Inv

/-- `State.reset` meets the invariant. -/
def Obligations.ResetMeetsTheInvariant : Prop := State.reset.Inv

/-- Every state construction gives, for any inputs, meets the invariant (70_reset_and_hazards.md section 1). -/
def Obligations.ConstructionMeetsTheInvariant : Prop :=
  ∀ (b : BootInputs) (s : State), construct b = .ok s → s.Inv

/-- 10_state.md R17: no covered instruction reads N or H, so two states that differ only there step alike. -/
def Obligations.SubtractAndHalfCarryInfluenceNothing : Prop :=
  ∀ s t : State, SameButNH s t → OutcomesSameButNH (step s) (step t)

/-- 20_memory.md R59: a byte stored over the next instruction in Video or Work RAM is the instruction the next step runs. -/
def Obligations.StoredByteIsTheNextInstruction : Prop :=
  ∀ (s : State) (i : Instr), s.Inv → s.busRead s.pc = .ok 0x77#8 → s.pair .hl = s.pc + 1#16 → PlainRam (s.pc + 1#16) →
    decode [s.regs.a] = .ok (i, []) →
    ∃ t : State, step s = .next t ∧ t.pc = s.pc + 1#16 ∧ step t = exec i { t with pc := s.pc + 2#16 }

/-! ### Registers, flags, pairs, the program counter -/

/-- 10_state.md R20. -/
def Obligations.FlagsRoundTripThroughTheByte : Prop :=
  (∀ f : Flags, Flags.unpack f.pack = f ∧ f.pack &&& 0x0F#8 = 0x00#8) ∧
  ∀ b : Byte, (Flags.unpack b).pack = b &&& 0xF0#8

/-- 10_state.md R14 and R15 under the bit order of 92_eei_decisions.md D1, the spec's own choice (log entry 11). -/
def Obligations.FlagsTakeTheHighNibbleInOrder : Prop :=
  (∀ f : Flags, f.pack.toNat = f.z.toNat * 0x80 + f.n.toNat * 0x40 + f.h.toNat * 0x20 + f.c.toNat * 0x10) ∧
  ∀ b : Byte, Flags.unpack b = { z := b.getLsbD 7, n := b.getLsbD 6, h := b.getLsbD 5, c := b.getLsbD 4 }

/-- 10_state.md R18, R19, R32: writing a pair and reading it back, half by half; for AF the low nibble is lost. -/
def Obligations.PairViewsRoundTrip : Prop :=
  ∀ (s : State) (v : Word),
    (∀ q ∈ [(PairSel.bc, RegSel.b, RegSel.c), (.de, .d, .e), (.hl, .h, .l)],
      (s.pair q.1).toNat = (s.reg q.2.1).toNat * 256 + (s.reg q.2.2).toNat ∧
      (s.setPair q.1 v).pair q.1 = v ∧
      ((s.setPair q.1 v).reg q.2.1).toNat = v.toNat / 256 ∧ ((s.setPair q.1 v).reg q.2.2).toNat = v.toNat % 256 ∧
      (∀ r : RegSel, r ≠ q.2.1 → r ≠ q.2.2 → (s.setPair q.1 v).reg r = s.reg r) ∧
      s.setPair q.1 v = { s with regs := (s.setPair q.1 v).regs }) ∧
    (s.pair .af).toNat = s.regs.a.toNat * 256 + s.flags.pack.toNat ∧ (s.pair .af).toNat % 16 = 0 ∧
    (s.setPair .af v).pair .af = v &&& 0xFFF0#16 ∧
    (s.setPair .af v).regs = { s.regs with a := BitVec.ofNat 8 (v.toNat / 256) } ∧
    (s.setPair .af v).flags = Flags.unpack (BitVec.ofNat 8 (v.toNat % 256)) ∧
    s.setPair .af v = { s with regs := (s.setPair .af v).regs, flags := (s.setPair .af v).flags }

/-- 10_state.md R22, R23: fetch-and-increment and the relative adjustment, in whole numbers modulo 65536. -/
def Obligations.ProgramCounterWraps : Prop :=
  (∀ s : State, s.pcNext.1 = s.pc ∧ s.pcNext.2 = { s with pc := s.pcNext.2.pc } ∧
    s.pcNext.2.pc.toNat = (s.pc.toNat + 1) % 65536) ∧
  (∀ (s : State) (e : Byte), s.pcRel e = { s with pc := (s.pcRel e).pc } ∧
    ((s.pcRel e).pc.toNat : Int) = ((s.pc.toNat : Int) + e.toInt) % 65536)

/-! ### The bus and the cartridge -/

/-- 20_memory.md R41, R46, R47: an access succeeds exactly at the wired addresses 0x0000 to 0xDFFF, whatever the state. -/
def Obligations.AccessesFaultExactlyWhenUnwired : Prop :=
  ∀ (s : State) (addr : Word) (v : Byte),
    (addr.toNat < 0xE000 → (∃ b : Byte, s.busRead addr = .ok b) ∧ ∃ t : State, s.busWrite addr v = .ok t) ∧
    (0xE000 ≤ addr.toNat → s.busRead addr = .error (.addressing .read addr) ∧
      s.busWrite addr v = .error (.addressing .write addr))

/-- 20_memory.md R50: Video and Work RAM answer the byte last written, and a write touches no other address. -/
def Obligations.PlainRamHoldsTheLastByteWritten : Prop :=
  ∀ (s : State) (addr : Word) (v : Byte), s.Inv → PlainRam addr →
    ∃ t : State, s.busWrite addr v = .ok t ∧ t.busRead addr = .ok v ∧
      ∀ a : Word, a ≠ addr → t.busRead a = s.busRead a

/-- 20_memory.md R52, with the offset inside the image. The index is 1 or more unless the controller coerces before it
masks; what a stored index 0 then reads is a parameter of the controller (log entry 21). -/
def Obligations.RomReadsTheSelectedBank : Prop :=
  ∀ (s : State) (addr : Word),
    (addr.toNat < 0x4000 → addr.toNat < s.bus.cart.romSize →
      s.busRead addr = .ok (Memory.read s.bus.cart.rom addr.toNat)) ∧
    (0x4000 ≤ addr.toNat → addr.toNat < 0x8000 → ∀ k : Nat,
      (1 ≤ s.bus.cart.romBank → k = s.bus.cart.romBank) →
      (s.bus.cart.romBank = 0 → k = if s.bus.cart.config.zeroReadsBankOne = true then 1 else 0) →
      k * 0x4000 + (addr.toNat - 0x4000) < s.bus.cart.romSize →
      s.busRead addr = .ok (Memory.read s.bus.cart.rom (k * 0x4000 + (addr.toNat - 0x4000))))

/-- 20_memory.md R53: a write to the ROM range changes control fields only, each control by its own rule; after RAM-enable is
written with a low nibble other than 0xA, cartridge RAM reads 0xFF. That the mask is the one written byte modulo `2 ^ w`, and
that a coercion after the mask acts on the masked value, is the model's deduction (log entry 23, DEDUCED), over the parameters
of log entry 2. -/
def Obligations.RomRangeWritesAreControlWrites : Prop :=
  ∀ (s : State) (addr : Word) (v : Byte), addr.toNat < 0x8000 →
    ∃ t : State, s.busWrite addr v = .ok t ∧
      t = { s with bus := { s.bus with cart := { s.bus.cart with
        ramEnabled := t.bus.cart.ramEnabled, romBank := t.bus.cart.romBank, ramBank := t.bus.cart.ramBank } } } ∧
      (s.bus.cart.controlAt addr = some .ramEnable →
        t.bus.cart = { s.bus.cart with ramEnabled := decide (v.toNat % 16 = 0xA) } ∧
        (v.toNat % 16 ≠ 0xA → ∀ a : Word, 0xA000 ≤ a.toNat → a.toNat < 0xC000 → t.busRead a = .ok 0xFF#8)) ∧
      (s.bus.cart.controlAt addr = some .romBank →
        t.bus.cart = { s.bus.cart with romBank := t.bus.cart.romBank } ∧
        (s.bus.cart.config.coerceBeforeMask = true →
          t.bus.cart.romBank = (if v.toNat = 0 then 1 else v.toNat) % 2 ^ s.bus.cart.config.romBankBits) ∧
        (s.bus.cart.config.coerceBeforeMask = false →
          t.bus.cart.romBank = if v.toNat % 2 ^ s.bus.cart.config.romBankBits = 0 then 1
            else v.toNat % 2 ^ s.bus.cart.config.romBankBits)) ∧
      (s.bus.cart.controlAt addr = some .ramBank →
        t.bus.cart = { s.bus.cart with ramBank := t.bus.cart.ramBank } ∧ t.bus.cart.ramBank.val = v.toNat % 4)

/-- The model's choice (log entry 9, DEDUCED): a ROM-range write that no window claims changes nothing. -/
def Obligations.UnclaimedRomWritesChangeNothing : Prop :=
  ∀ (s : State) (addr : Word) (v : Byte), addr.toNat < 0x8000 →
    (∀ w ∈ s.bus.cart.config.windows, ¬(w.lo ≤ addr.toNat ∧ addr.toNat ≤ w.hi)) → s.busWrite addr v = .ok s

/-- 20_memory.md R55: a 0x00 written to ROM-bank-select acts as a 0x01. -/
def Obligations.RomBankZeroActsAsOne : Prop :=
  ∀ (s : State) (addr : Word), addr.toNat < 0x8000 → s.bus.cart.controlAt addr = some .romBank →
    s.busWrite addr 0x00#8 = s.busWrite addr 0x01#8

/-- 20_memory.md R54: denied cartridge RAM answers 0xFF and drops writes, without a fault; otherwise the byte of the selected
bank is read and written. -/
def Obligations.CartridgeRamFollowsItsEnable : Prop :=
  ∀ (s : State) (addr : Word) (v : Byte), 0xA000 ≤ addr.toNat → addr.toNat < 0xC000 →
    (s.bus.cart.ramEnabled = false ∨ s.bus.cart.config.ramSize = 0 →
      s.busRead addr = .ok 0xFF#8 ∧ s.busWrite addr v = .ok s) ∧
    (s.bus.cart.ramEnabled = true → ∀ k : Nat,
      k = s.bus.cart.ramBank.val * s.bus.cart.config.ramStride + (addr.toNat - 0xA000) → k < s.bus.cart.config.ramSize →
      s.busRead addr = .ok (Memory.read s.bus.cart.ram k) ∧
      ∃ t : State, s.busWrite addr v = .ok t ∧
        t = { s with bus := { s.bus with cart := { s.bus.cart with ram := t.bus.cart.ram } } } ∧
        (s.Inv → t.busRead addr = .ok v) ∧
        ∀ q : Route, q ≠ .cartRam k → t.bus.load q = s.bus.load q)

/-! ### Reset -/

/-- 10_state.md R37, R38, R39: the registers, flags, PC and SP construction gives, for every image and every `SP_RESET`. -/
def Obligations.ConstructionSetsThePostBootValues : Prop :=
  ∀ b : BootInputs, 0x014E ≤ b.image.length →
    ∃ s : State, construct b = .ok s ∧
      s.reg .a = 0x01#8 ∧ s.reg .b = 0x00#8 ∧ s.reg .c = 0x13#8 ∧ s.reg .d = 0x00#8 ∧ s.reg .e = 0xD8#8 ∧
      s.reg .h = 0x01#8 ∧ s.reg .l = 0x4D#8 ∧
      s.pair .bc = 0x0013#16 ∧ s.pair .de = 0x00D8#16 ∧ s.pair .hl = 0x014D#16 ∧
      (b.image[0x014D]? ≠ some 0x00#8 → s.flags = { z := false, n := false, h := true, c := true } ∧
        s.pair .af = 0x0130#16) ∧
      (b.image[0x014D]? = some 0x00#8 → s.flags = { z := false, n := false, h := false, c := false } ∧
        s.pair .af = 0x0100#16) ∧
      s.pc = 0x0100#16 ∧ s.sp = b.spReset

/-- 70_reset_and_hazards.md R240, 20_memory.md R50: after construction every image byte is the ROM byte at its offset, and
every given initial byte of Video, Work and cartridge RAM is where it was given. -/
def Obligations.ConstructionLoadsTheMemories : Prop :=
  ∀ (b : BootInputs) (s : State), construct b = .ok s →
    s.bus.cart.romSize = b.image.length ∧
    (∀ (k : Nat) (v : Byte), b.image[k]? = some v → s.bus.cart.romByte k = v) ∧
    (∀ (k : Nat) (v : Byte), k < 0x2000 → b.initVram[k]? = some v →
      s.busRead (BitVec.ofNat 16 (0x8000 + k)) = .ok v) ∧
    (∀ (k : Nat) (v : Byte), k < 0x2000 → b.initWram[k]? = some v →
      s.busRead (BitVec.ofNat 16 (0xC000 + k)) = .ok v) ∧
    (∀ (k : Nat) (v : Byte), k < b.config.ramSize → b.initCartRam[k]? = some v → Memory.read s.bus.cart.ram k = v) ∧
    s.bus.cart.config = b.config ∧ s.bus.cart.ramEnabled = false ∧ s.bus.cart.romBank = 1 ∧ s.bus.cart.ramBank = 0

/-- 60_exceptions.md R219, the spec's decision D14 (log entry 25). -/
def Obligations.ShortImagesAreRefused : Prop :=
  ∀ b : BootInputs, b.image.length < 0x014E → construct b = .error (.shortImage b.image.length)

/-- The model's choice (log entries 2 to 5, DESIGN CHOICE): `State.reset` is what construction gives for the inputs the log
names. -/
def Obligations.ResetIsTheLoggedConstruction : Prop := construct BootInputs.reset = .ok State.reset

/-! ### The core on any bus -/

/-- 00_scope.md R4, 92_eei_decisions.md D27: the machine's step is the core's step on the reference bus. -/
def Obligations.StepIsTheCoreOnTheReferenceBus : Prop := ∀ s : State, step s = onReference (stepOn referenceBus) s

/-- 00_scope.md R4, 92_eei_decisions.md D27: on every bus an instruction that neither loads, stores nor restarts leaves the
bus's state, and what it does is the same on every other bus. -/
def Obligations.RegisterInstructionsIgnoreTheBus : Prop :=
  ∀ (σ τ : Type) (bus : Bus σ) (bus' : Bus τ) (i : Instr) (m t : CoreOn σ) (q : τ),
    isLoad i = false → isStore i = false → isRestart i = false → execOn bus i m = .next t →
    t.bus = m.bus ∧ execOn bus' i (onto m q) = .next (onto t q)

/-- 42_loads.md R148, R160, 40_jumps.md R106, on every bus: a store completes with what the bus makes of the byte, a load with
the byte the bus answers, a restart with its two writes, low byte first (the spec's decision D9, log entry 12); where the bus
raises AddressingFault the instruction does. -/
def Obligations.MemoryInstructionsDoWhatTheBusDoes : Prop :=
  ∀ (σ : Type) (bus : Bus σ) (m : CoreOn σ),
    (∀ f ∈ storeForms,
      (∀ q : σ, bus.write m.bus (m.pair f.2.2.1) (m.reg f.2.2.2) = some q →
        execOn bus f.2.1 m = .next { m with bus := q }) ∧
      (bus.write m.bus (m.pair f.2.2.1) (m.reg f.2.2.2) = none →
        execOn bus f.2.1 m = .fault (.addressing .write (m.pair f.2.2.1)))) ∧
    (∀ f ∈ loadForms,
      (∀ (b : Byte) (q : σ), bus.read m.bus (m.pair f.2.2.1) = some (b, q) →
        ∃ t : CoreOn σ, execOn bus f.2.1 m = .next t ∧ t.reg f.2.2.2 = b ∧
          (∀ r : RegSel, r ≠ f.2.2.2 → t.reg r = m.reg r) ∧ t = { m with regs := t.regs, bus := q }) ∧
      (bus.read m.bus (m.pair f.2.2.1) = none → execOn bus f.2.1 m = .fault (.addressing .read (m.pair f.2.2.1)))) ∧
    (∀ f ∈ restartForms,
      (∀ q1 q2 : σ, bus.write m.bus (m.sp - 2#16) (BitVec.ofNat 8 (m.pc.toNat % 256)) = some q1 →
        bus.write q1 (m.sp - 1#16) (BitVec.ofNat 8 (m.pc.toNat / 256)) = some q2 →
        execOn bus f.2.1 m = .next { m with pc := f.2.2, sp := m.sp - 2#16, bus := q2 }) ∧
      (bus.write m.bus (m.sp - 2#16) (BitVec.ofNat 8 (m.pc.toNat % 256)) = none →
        execOn bus f.2.1 m = .fault (.addressing .write (m.sp - 2#16))) ∧
      (∀ q1 : σ, bus.write m.bus (m.sp - 2#16) (BitVec.ofNat 8 (m.pc.toNat % 256)) = some q1 →
        bus.write q1 (m.sp - 1#16) (BitVec.ofNat 8 (m.pc.toNat / 256)) = none →
        execOn bus f.2.1 m = .fault (.addressing .write (m.sp - 1#16))))

/-- 10_state.md R11, R17, R25, R34, on every bus: what a completed step may change of the core. -/
def Obligations.FramesHoldOnEveryBus : Prop :=
  ∀ (σ : Type) (bus : Bus σ) (i : Instr) (m m' t : CoreOn σ),
    m.fetchInstr bus = .ok (i, m') → stepOn bus m = .next t →
    (writesFlags i = false → t.flags = m.flags) ∧ (∀ r : RegSel, r ∉ writtenRegs i → t.reg r = m.reg r) ∧
    (t.sp = if isRestart i then m.sp - 2#16 else m.sp) ∧ pcAfter i m.flags m.pc = some t.pc

/-- 60_exceptions.md R200 to R204, R217, on every bus: the faults of a step; a step is never refused. -/
def Obligations.FaultsHaveTheListedCausesOnEveryBus : Prop :=
  ∀ (σ : Type) (bus : Bus σ) (m : CoreOn σ),
    (∀ f : Fault, stepOn bus m = .fault f →
      (∃ (op : Byte) (q : σ), bus.read m.bus m.pc = some (op, q) ∧ op.toNat ∈ uncoveredOpcodes ∧
        f = .decodePrimary op m.pc) ∨
      (∃ (x : Byte) (q q' : σ), bus.read m.bus m.pc = some (0xCB#8, q) ∧ bus.read q (m.pc + 1#16) = some (x, q') ∧
        f = .decodeExtended x m.pc) ∨
      (∃ (k : Access) (q : σ) (a : Word), bus.Refuses k q a ∧ f = .addressing k a)) ∧
    (∀ t : Tag, stepOn bus m ≠ .fault (.dispatch t)) ∧
    ∀ r : Refusal, stepOn bus m ≠ .refused r

/-- 20_memory.md R42, on every bus: a step that completes makes exactly the accesses of the table, in its order. -/
def Obligations.AccessesFollowTheTableOnEveryBus : Prop :=
  ∀ (σ : Type) (bus : Bus σ) (i : Instr) (m m' t : CoreOn σ),
    m.fetchInstr bus = .ok (i, m') → stepOn bus m = .next t →
    stepOn (recording bus) (onto m (m.bus, [])) = .next (onto t (t.bus, tableAccesses i m))

/-- 10_state.md R37, R38, R39, 60_exceptions.md R219, on every bus: what construction leaves in the core. -/
def Obligations.ConstructionSetsTheCoreOnEveryBus : Prop :=
  ∀ (σ : Type) (image : List Byte) (sp : Word) (q : σ),
    (image.length < 0x014E → constructOn image sp q = .error (.shortImage image.length)) ∧
    (0x014E ≤ image.length → ∃ m : CoreOn σ, constructOn image sp q = .ok m ∧
      m.regs = { a := 0x01#8, b := 0x00#8, c := 0x13#8, d := 0x00#8, e := 0xD8#8, h := 0x01#8, l := 0x4D#8 } ∧
      (image[0x014D]? ≠ some 0x00#8 → m.flags = { z := false, n := false, h := true, c := true }) ∧
      (image[0x014D]? = some 0x00#8 → m.flags = { z := false, n := false, h := false, c := false }) ∧
      m.pc = 0x0100#16 ∧ m.sp = sp ∧ m.bus = q)
end

