-- ==== Sys2Proof/Laws/Memory.lean ====
section
/-! SUPPORT. The laws of a byte store: read after write, and that every operation keeps the canonical form and the address
range. -/

namespace Sys2Proof.Machine

theorem Memory.read_cons (a : Nat) (v : Byte) (m : Memory) (k : Nat) (h : Memory.read m a = Memory.unlisted) :
    Memory.read (Memory.cons a v m) k = if k = a then v else Memory.read m k := by
  unfold Memory.cons
  split
  · next hv => split
               · next hk => rw [hk, h, hv]
               · rfl
  · simp [Memory.read]

/-- An address below every listed one reads as unlisted. -/
theorem Memory.read_of_lt_all (m : Memory) (a : Nat) (h : ∀ c ∈ m, a < c.1) : Memory.read m a = Memory.unlisted := by
  induction m with
  | nil => rfl
  | cons c m ih =>
    have h1 : a < c.1 := h c (by simp)
    simp only [Memory.read]
    rw [if_neg (by omega)]
    exact ih fun d hd => h d (by simp [hd])

theorem Memory.wf_cons_iff (k : Nat) (v : Byte) (m : Memory) :
    Memory.wf ((k, v) :: m) = true ↔ v ≠ Memory.unlisted ∧ (∀ c ∈ m, k < c.1) ∧ Memory.wf m = true := by
  simp [Memory.wf, and_assoc]

theorem Memory.wf_cons (a : Nat) (v : Byte) (m : Memory) (hm : Memory.wf m = true) (h : ∀ c ∈ m, a < c.1) :
    Memory.wf (Memory.cons a v m) = true := by
  unfold Memory.cons
  split
  · exact hm
  · next hv => exact (Memory.wf_cons_iff a v m).2 ⟨hv, h, hm⟩

/-- An entry of a written store is the new one or an old one. -/
theorem Memory.mem_write (m : Memory) (a : Nat) (v : Byte) (c : Host.Cell) (h : c ∈ Memory.write m a v) :
    c = (a, v) ∨ c ∈ m := by
  induction m with
  | nil =>
    simp only [Memory.write, Memory.cons] at h
    split at h <;> simp_all
  | cons d m ih =>
    obtain ⟨k, w⟩ := d
    simp only [Memory.write, Memory.cons] at h
    split at h
    · split at h <;> simp_all
    · split at h
      · split at h <;> simp_all
        tauto
      · rcases List.mem_cons.1 h with h | h
        · exact .inr (by simp [h])
        · rcases ih h with h | h
          · exact .inl h
          · exact .inr (by simp [h])

theorem Memory.wf_write (m : Memory) (a : Nat) (v : Byte) (h : Memory.wf m = true) :
    Memory.wf (Memory.write m a v) = true := by
  induction m with
  | nil => exact Memory.wf_cons a v [] rfl (by simp)
  | cons d m ih =>
    obtain ⟨k, w⟩ := d
    obtain ⟨h1, h2, h3⟩ := (Memory.wf_cons_iff k w m).1 h
    simp only [Memory.write]
    split
    · next hlt =>
      refine Memory.wf_cons a v _ h fun c hc => ?_
      rcases List.mem_cons.1 hc with hc | hc
      · simpa [hc] using hlt
      · have := h2 c hc; omega
    · next hlt =>
      split
      · next heq => exact Memory.wf_cons a v m h3 fun c hc => by have := h2 c hc; omega
      · next hne =>
        refine (Memory.wf_cons_iff k w _).2 ⟨h1, fun c hc => ?_, ih h3⟩
        rcases Memory.mem_write m a v c hc with hc | hc
        · simp only [hc]; omega
        · exact h2 c hc

/-- The byte written is the byte read, in a canonical store. -/
theorem Memory.read_write_same (m : Memory) (a : Nat) (v : Byte) (h : Memory.wf m = true) :
    Memory.read (Memory.write m a v) a = v := by
  induction m with
  | nil => rw [Memory.write, Memory.read_cons _ _ _ _ rfl, if_pos rfl]
  | cons d m ih =>
    obtain ⟨k, w⟩ := d
    obtain ⟨-, h2, h3⟩ := (Memory.wf_cons_iff k w m).1 h
    simp only [Memory.write]
    split
    · next hlt =>
      rw [Memory.read_cons _ _ _ _ (Memory.read_of_lt_all _ _ fun c hc => ?_), if_pos rfl]
      rcases List.mem_cons.1 hc with hc | hc
      · simpa [hc] using hlt
      · have := h2 c hc; omega
    · split
      · next heq =>
        rw [Memory.read_cons _ _ _ _ (Memory.read_of_lt_all _ _ fun c hc => by have := h2 c hc; omega), if_pos rfl]
      · next hne =>
        simp only [Memory.read]
        rw [if_neg hne]
        exact ih h3

/-- A write leaves every other address alone, canonical or not. -/
theorem Memory.read_write_ne (m : Memory) (a b : Nat) (v : Byte) (h : b ≠ a) :
    Memory.read (Memory.write m a v) b = Memory.read m b := by
  induction m with
  | nil =>
    simp only [Memory.write, Memory.cons]
    split <;> simp [Memory.read, h]
  | cons d m ih =>
    obtain ⟨k, w⟩ := d
    simp only [Memory.write, Memory.cons]
    split
    · split <;> simp [Memory.read, h]
    · split
      · next heq => split <;> simp [Memory.read, h, ← heq]
      · simp only [Memory.read, ih]

theorem Memory.within_iff (lo hi : Nat) (m : Memory) :
    Memory.within lo hi m = true ↔ ∀ c ∈ m, lo ≤ c.1 ∧ c.1 < hi := by
  simp [Memory.within]

theorem Memory.within_write (lo hi : Nat) (m : Memory) (a : Nat) (v : Byte) (h : Memory.within lo hi m = true)
    (h1 : lo ≤ a) (h2 : a < hi) : Memory.within lo hi (Memory.write m a v) = true := by
  rw [Memory.within_iff] at *
  intro c hc
  rcases Memory.mem_write m a v c hc with hc | hc
  · simpa [hc] using And.intro h1 h2
  · exact h c hc

theorem Memory.mem_ofBytes (base : Nat) (bs : List Byte) (c : Host.Cell) (h : c ∈ Memory.ofBytes base bs) :
    base ≤ c.1 ∧ c.1 < base + bs.length := by
  induction bs generalizing base with
  | nil => simp [Memory.ofBytes] at h
  | cons b bs ih =>
    have key : c = (base, b) ∨ c ∈ Memory.ofBytes (base + 1) bs := by
      simp only [Memory.ofBytes, Memory.cons] at h
      split at h
      · exact .inr h
      · exact List.mem_cons.1 h
    rcases key with rfl | h
    · simp
    · have := ih (base + 1) h
      simp only [List.length_cons]
      omega

theorem Memory.wf_ofBytes (base : Nat) (bs : List Byte) : Memory.wf (Memory.ofBytes base bs) = true := by
  induction bs generalizing base with
  | nil => rfl
  | cons b bs ih =>
    exact Memory.wf_cons _ _ _ (ih _) fun c hc => by have := Memory.mem_ofBytes _ _ _ hc; omega

theorem Memory.within_ofBytes (base lo hi : Nat) (bs : List Byte) (h1 : lo ≤ base) (h2 : base + bs.length ≤ hi) :
    Memory.within lo hi (Memory.ofBytes base bs) = true := by
  rw [Memory.within_iff]
  intro c hc
  have := Memory.mem_ofBytes _ _ _ hc
  omega

/-- Loading a byte sequence puts each byte at its address. -/
theorem Memory.read_ofBytes (base : Nat) (bs : List Byte) (k : Nat) (v : Byte) (h : bs[k]? = some v) :
    Memory.read (Memory.ofBytes base bs) (base + k) = v := by
  induction bs generalizing base k with
  | nil => simp at h
  | cons b bs ih =>
    rw [Memory.ofBytes, Memory.read_cons _ _ _ _ (Memory.read_of_lt_all _ _ fun c hc => by
      have := Memory.mem_ofBytes _ _ _ hc; omega)]
    cases k with
    | zero => simpa using h
    | succ k =>
      rw [if_neg (by omega)]
      have := ih (base + 1) k (by simpa using h)
      rwa [show base + 1 + k = base + (k + 1) by omega] at this

/-- A sequence of unlisted bytes lists nothing. -/
theorem Memory.ofBytes_replicate (base n : Nat) :
    Memory.ofBytes base (List.replicate n Memory.unlisted) = [] := by
  induction n generalizing base with
  | zero => rfl
  | succ n ih => simp [List.replicate_succ, Memory.ofBytes, Memory.cons, ih]

end Sys2Proof.Machine
end

