-- ==== Sys2Proof/Laws/State.lean ====
section
/-! SUPPORT. One lemma per field and update of the state, on any bus, the accessors over them, and the two accesses. -/

namespace Sys2Proof.Machine

variable {σ : Type}

@[simp] theorem CoreOn.setPc_regs (m : CoreOn σ) (w : Word) : (m.setPc w).regs = m.regs := rfl
@[simp] theorem CoreOn.setPc_flags (m : CoreOn σ) (w : Word) : (m.setPc w).flags = m.flags := rfl
@[simp] theorem CoreOn.setPc_pc (m : CoreOn σ) (w : Word) : (m.setPc w).pc = w := rfl
@[simp] theorem CoreOn.setPc_sp (m : CoreOn σ) (w : Word) : (m.setPc w).sp = m.sp := rfl
@[simp] theorem CoreOn.setPc_bus (m : CoreOn σ) (w : Word) : (m.setPc w).bus = m.bus := rfl

@[simp] theorem CoreOn.setSp_regs (m : CoreOn σ) (w : Word) : (m.setSp w).regs = m.regs := rfl
@[simp] theorem CoreOn.setSp_flags (m : CoreOn σ) (w : Word) : (m.setSp w).flags = m.flags := rfl
@[simp] theorem CoreOn.setSp_pc (m : CoreOn σ) (w : Word) : (m.setSp w).pc = m.pc := rfl
@[simp] theorem CoreOn.setSp_sp (m : CoreOn σ) (w : Word) : (m.setSp w).sp = w := rfl
@[simp] theorem CoreOn.setSp_bus (m : CoreOn σ) (w : Word) : (m.setSp w).bus = m.bus := rfl

@[simp] theorem CoreOn.setFlags_regs (m : CoreOn σ) (f : Flags) : (m.setFlags f).regs = m.regs := rfl
@[simp] theorem CoreOn.setFlags_flags (m : CoreOn σ) (f : Flags) : (m.setFlags f).flags = f := rfl
@[simp] theorem CoreOn.setFlags_pc (m : CoreOn σ) (f : Flags) : (m.setFlags f).pc = m.pc := rfl
@[simp] theorem CoreOn.setFlags_sp (m : CoreOn σ) (f : Flags) : (m.setFlags f).sp = m.sp := rfl
@[simp] theorem CoreOn.setFlags_bus (m : CoreOn σ) (f : Flags) : (m.setFlags f).bus = m.bus := rfl

@[simp] theorem CoreOn.setReg_flags (m : CoreOn σ) (r : RegSel) (v : Byte) : (m.setReg r v).flags = m.flags := by cases r <;> rfl
@[simp] theorem CoreOn.setReg_pc (m : CoreOn σ) (r : RegSel) (v : Byte) : (m.setReg r v).pc = m.pc := by cases r <;> rfl
@[simp] theorem CoreOn.setReg_sp (m : CoreOn σ) (r : RegSel) (v : Byte) : (m.setReg r v).sp = m.sp := by cases r <;> rfl
@[simp] theorem CoreOn.setReg_bus (m : CoreOn σ) (r : RegSel) (v : Byte) : (m.setReg r v).bus = m.bus := by cases r <;> rfl

@[simp] theorem CoreOn.setPair_pc (m : CoreOn σ) (p : PairSel) (w : Word) : (m.setPair p w).pc = m.pc := by cases p <;> rfl
@[simp] theorem CoreOn.setPair_sp (m : CoreOn σ) (p : PairSel) (w : Word) : (m.setPair p w).sp = m.sp := by cases p <;> rfl
@[simp] theorem CoreOn.setPair_bus (m : CoreOn σ) (p : PairSel) (w : Word) : (m.setPair p w).bus = m.bus := by cases p <;> rfl

theorem CoreOn.setPair_flags (m : CoreOn σ) (p : PairSel) (w : Word) (h : p ≠ .af) : (m.setPair p w).flags = m.flags := by
  cases p <;> first | rfl | exact absurd rfl h

/-- A register write and read (10_state.md R11). -/
@[simp] theorem CoreOn.reg_setReg (m : CoreOn σ) (r q : RegSel) (v : Byte) :
    (m.setReg r v).reg q = if q = r then v else m.reg q := by
  cases r <;> cases q <;> rfl

theorem CoreOn.setReg_eq (m : CoreOn σ) (r : RegSel) (v : Byte) : m.setReg r v = { m with regs := (m.setReg r v).regs } := by
  cases r <;> rfl

@[simp] theorem CoreOn.reg_setPc (m : CoreOn σ) (w : Word) (r : RegSel) : (m.setPc w).reg r = m.reg r := by cases r <;> rfl
@[simp] theorem CoreOn.reg_setSp (m : CoreOn σ) (w : Word) (r : RegSel) : (m.setSp w).reg r = m.reg r := by cases r <;> rfl
@[simp] theorem CoreOn.reg_setFlags (m : CoreOn σ) (f : Flags) (r : RegSel) : (m.setFlags f).reg r = m.reg r := by
  cases r <;> rfl

@[simp] theorem CoreOn.setPc_setPc (m : CoreOn σ) (w v : Word) : (m.setPc w).setPc v = m.setPc v := rfl

@[simp] theorem CoreOn.toState_toCoreOn (m : CoreOn Platform) : m.toState.toCoreOn = m := rfl
@[simp] theorem State.toCoreOn_toState (s : State) : s.toCoreOn.toState = s := rfl

/-- A read that succeeds is the bus's answer; nothing but the bus's state may change (20_memory.md R41). -/
theorem CoreOn.memRead_ok_iff (m m' : CoreOn σ) (bus : Bus σ) (addr : Word) (b : Byte) :
    m.memRead bus addr = .ok (b, m') ↔ ∃ q, bus.read m.bus addr = some (b, q) ∧ m' = { m with bus := q } := by
  unfold CoreOn.memRead
  cases bus.read m.bus addr with
  | none => simp
  | some p => obtain ⟨c, q⟩ := p; simp [eq_comm]

/-- A read fails with the addressing fault of an address the bus does not answer. -/
theorem CoreOn.memRead_error_iff (m : CoreOn σ) (bus : Bus σ) (addr : Word) (f : Fault) :
    m.memRead bus addr = .error f ↔ bus.read m.bus addr = none ∧ f = .addressing .read addr := by
  unfold CoreOn.memRead
  cases bus.read m.bus addr <;> simp [eq_comm]

/-- A write that succeeds is the bus's doing; nothing but the bus's state may change (20_memory.md R41). -/
theorem CoreOn.memWrite_ok_iff (m m' : CoreOn σ) (bus : Bus σ) (addr : Word) (v : Byte) :
    m.memWrite bus addr v = .ok m' ↔ ∃ q, bus.write m.bus addr v = some q ∧ m' = { m with bus := q } := by
  unfold CoreOn.memWrite
  cases bus.write m.bus addr v <;> simp [eq_comm]

/-- A write fails with the addressing fault of an address the bus does not take. -/
theorem CoreOn.memWrite_error_iff (m : CoreOn σ) (bus : Bus σ) (addr : Word) (v : Byte) (f : Fault) :
    m.memWrite bus addr v = .error f ↔ bus.write m.bus addr v = none ∧ f = .addressing .write addr := by
  unfold CoreOn.memWrite
  cases bus.write m.bus addr v <;> simp [eq_comm]

/-- An outcome on the reference bus goes on exactly where the core does. -/
theorem onReference_next_iff (f : CoreOn Platform → OutcomeOn Platform) (s t : State) :
    onReference f s = .next t ↔ f s.toCoreOn = .next t.toCoreOn := by
  unfold onReference
  obtain ⟨m⟩ := t
  cases f s.toCoreOn <;> simp [CoreOn.toState]

/-- The registers that are a pair's high and low byte (10_state.md R18); AF's low byte is the flags. -/
def pairHalves : PairSel → Option (RegSel × RegSel)
  | .af => none
  | .bc => some (.b, .c)
  | .de => some (.d, .e)
  | .hl => some (.h, .l)

/-- A pair view and a pair write by its halves (10_state.md R18, R19). -/
theorem CoreOn.pair_of_halves (m : CoreOn σ) (p : PairSel) (hi lo : RegSel) (h : pairHalves p = some (hi, lo)) :
    m.pair p = cat (m.reg hi) (m.reg lo) ∧ ∀ w, m.setPair p w = (m.setReg hi (hi8 w)).setReg lo (lo8 w) := by
  cases p <;> simp only [pairHalves, Option.some.injEq, Prod.mk.injEq, reduceCtorEq] at h <;>
    obtain ⟨rfl, rfl⟩ := h <;> exact ⟨rfl, fun _ => rfl⟩

/-- Writing a pair of registers and reading the view back (10_state.md R32). -/
theorem CoreOn.pair_setPair (m : CoreOn σ) (p : PairSel) (w : Word) (h : p ≠ .af) : (m.setPair p w).pair p = w := by
  cases p <;> first | exact absurd rfl h | exact cat_hi8_lo8 w

end Sys2Proof.Machine
end

