-- ==== Sys2Proof/Laws/Bus.lean ====
section
/-! SUPPORT. What the bus does: which addresses are wired, which place an access reaches, what a read answers and a write
leaves. -/

namespace Sys2Proof.Machine

theorem regionOf_eq_unwired_iff (addr : Word) : regionOf addr = .unwired ↔ 0xE000 ≤ addr.toNat := by
  unfold regionOf
  split <;> [skip; (split <;> [skip; (split <;> [skip; split])])] <;> simp <;> omega

theorem regionOf_rom (addr : Word) (h : addr.toNat < 0x8000) : regionOf addr = .rom := by
  simp [regionOf, h]

theorem regionOf_cartRam (addr : Word) (h1 : 0xA000 ≤ addr.toNat) (h2 : addr.toNat < 0xC000) :
    regionOf addr = .cartRam := by
  unfold regionOf
  rw [if_neg (by omega), if_neg (by omega), if_pos h2]

/-- The cartridge RAM window never leads to an unwired place or out of the cartridge. -/
theorem Cartridge.ramRoute_cases (c : Cartridge) (addr : Word) :
    c.ramRoute addr = .ramDenied ∨ (∃ k, k < c.config.ramSize ∧ c.ramRoute addr = .cartRam k) ∨
      ∃ b p, c.ramRoute addr = .ramNoByte b p := by
  unfold Cartridge.ramRoute
  split
  · exact .inl rfl
  · next h =>
    have hpos : 0 < c.config.ramSize := by
      simp only [Cartridge.ramReady, Bool.not_eq_false, Bool.and_eq_true, decide_eq_true_eq] at h
      omega
    split
    · next hk => exact .inr (.inl ⟨_, hk, rfl⟩)
    · split
      · next k _ => exact .inr (.inl ⟨_, Nat.mod_lt _ hpos, rfl⟩)
      · exact .inr (.inr ⟨_, _, rfl⟩)

/-- Where an access ends up, by the address's range (20_memory.md R46). -/
theorem Platform.route_cases (p : Platform) (addr : Word) :
    (addr.toNat < 0x8000 ∧ p.route addr = .rom (p.cart.romOffset addr)) ∨
    (0x8000 ≤ addr.toNat ∧ addr.toNat < 0xA000 ∧ p.route addr = .vram addr.toNat) ∨
    (0xA000 ≤ addr.toNat ∧ addr.toNat < 0xC000 ∧ p.route addr = p.cart.ramRoute addr) ∨
    (0xC000 ≤ addr.toNat ∧ addr.toNat < 0xE000 ∧ p.route addr = .wram addr.toNat) ∨
    (0xE000 ≤ addr.toNat ∧ p.route addr = .unwired) := by
  unfold Platform.route regionOf
  by_cases h1 : addr.toNat < 0x8000
  · simp [h1]
  by_cases h2 : addr.toNat < 0xA000
  · simp [h1, h2]; omega
  by_cases h3 : addr.toNat < 0xC000
  · simp [h1, h2, h3]; omega
  by_cases h4 : addr.toNat < 0xE000
  · simp [h1, h2, h3, h4]; omega
  · simp [h1, h2, h3, h4]; omega

theorem Platform.route_eq_unwired_iff (p : Platform) (addr : Word) : p.route addr = .unwired ↔ 0xE000 ≤ addr.toNat := by
  rcases p.route_cases addr with ⟨h, e⟩ | ⟨h, h', e⟩ | ⟨h, h', e⟩ | ⟨h, h', e⟩ | ⟨h, e⟩ <;> rw [e]
  · simp; omega
  · simp; omega
  · rcases p.cart.ramRoute_cases addr with e | ⟨_, _, e⟩ | ⟨_, _, e⟩ <;> rw [e] <;> simp <;> omega
  · simp; omega
  · simpa using h

/-- The route depends on the cartridge and the address alone. -/
theorem Platform.route_congr (p q : Platform) (addr : Word) (h : q.cart = p.cart) : q.route addr = p.route addr := by
  simp only [Platform.route, h]

/-- What a place answers depends on the stores alone. -/
theorem Platform.load_congr (p q : Platform) (r : Route) (h1 : q.vram = p.vram) (h2 : q.wram = p.wram) (h3 : q.cart = p.cart) :
    q.load r = p.load r := by
  cases r <;> simp only [Platform.load, h1, h2, h3]

theorem Platform.load_eq_none_iff (p : Platform) (r : Route) : p.load r = none ↔ r = .unwired := by
  cases r <;> simp [Platform.load]

@[simp] theorem referenceBus_read (p : Platform) (addr : Word) :
    referenceBus.read p addr = (p.load (p.route addr)).map fun b => (b, p) := rfl

@[simp] theorem referenceBus_write (p : Platform) (addr : Word) (v : Byte) : referenceBus.write p addr v = p.write addr v := rfl

/-- The reference bus's read answers for a place and changes nothing (20_memory.md R41). -/
theorem CoreOn.memRead_reference (m : CoreOn Platform) (addr : Word) :
    m.memRead referenceBus addr = match m.bus.load (m.bus.route addr) with
      | some b => .ok (b, m)
      | none => .error (.addressing .read addr) := by
  rw [CoreOn.memRead, referenceBus_read]
  cases m.bus.load (m.bus.route addr) <;> rfl

theorem State.busRead_eq (s : State) (addr : Word) : s.busRead addr = match s.bus.load (s.bus.route addr) with
    | some b => .ok b
    | none => .error (.addressing .read addr) := by
  unfold State.busRead
  rw [CoreOn.memRead_reference]
  cases s.bus.load (s.bus.route addr) <;> rfl

/-- The core's read on the reference bus, by the byte the machine reads. -/
theorem CoreOn.memRead_eq_busRead (m : CoreOn Platform) (addr : Word) :
    m.memRead referenceBus addr = (m.toState.busRead addr).map fun b => (b, m) := by
  rw [CoreOn.memRead_reference, State.busRead_eq]
  change _ = Except.map _ (match m.bus.load (m.bus.route addr) with | some b => .ok b | none => .error _)
  cases m.bus.load (m.bus.route addr) <;> rfl

theorem State.busWrite_eq (s : State) (addr : Word) (v : Byte) : s.busWrite addr v = match s.bus.write addr v with
    | some q => .ok { s with bus := q }
    | none => .error (.addressing .write addr) := by
  rw [State.busWrite, CoreOn.memWrite, referenceBus_write]
  cases s.bus.write addr v <;> rfl

/-- The core's write on the reference bus, by the state the machine's write gives. -/
theorem CoreOn.memWrite_eq_busWrite (m : CoreOn Platform) (addr : Word) (v : Byte) :
    m.memWrite referenceBus addr v = (m.toState.busWrite addr v).map State.toCoreOn := by
  unfold State.busWrite
  change m.memWrite referenceBus addr v = Except.map _ (Except.map _ (m.memWrite referenceBus addr v))
  cases m.memWrite referenceBus addr v <;> rfl

/-- A bus read depends on the platform alone. -/
theorem State.busRead_congr (s t : State) (addr : Word) (h : t.bus = s.bus) : t.busRead addr = s.busRead addr := by
  rw [State.busRead_eq, State.busRead_eq, h]

/-- A read of an unwired address faults (20_memory.md R47). -/
theorem State.busRead_unwired (s : State) (addr : Word) (h : 0xE000 ≤ addr.toNat) :
    s.busRead addr = .error (.addressing .read addr) := by
  rw [State.busRead_eq, (s.bus.route_eq_unwired_iff addr).2 h]
  rfl

/-- A read of a wired address answers a byte (20_memory.md R41). -/
theorem State.busRead_wired (s : State) (addr : Word) (h : addr.toNat < 0xE000) : ∃ b, s.busRead addr = .ok b := by
  rw [State.busRead_eq]
  split
  · next b _ => exact ⟨b, rfl⟩
  · next e =>
    have := (s.bus.route_eq_unwired_iff addr).1 ((s.bus.load_eq_none_iff _).1 e)
    omega

/-- The fault of a bus read is the addressing fault of an unwired address. -/
theorem State.busRead_error (s : State) (addr : Word) (f : Fault) (h : s.busRead addr = .error f) :
    f = .addressing .read addr ∧ 0xE000 ≤ addr.toNat := by
  by_cases hw : addr.toNat < 0xE000
  · obtain ⟨b, hb⟩ := s.busRead_wired addr hw
    rw [hb] at h
    cases h
  · rw [s.busRead_unwired addr (by omega)] at h
    cases h
    exact ⟨rfl, by omega⟩

/-- A write to an unwired address faults (20_memory.md R47). -/
theorem State.busWrite_unwired (s : State) (addr : Word) (v : Byte) (h : 0xE000 ≤ addr.toNat) :
    s.busWrite addr v = .error (.addressing .write addr) := by
  rw [State.busWrite_eq, Platform.write, (s.bus.route_eq_unwired_iff addr).2 h]

/-- A control write changes control fields only (20_memory.md R53). -/
theorem Cartridge.writeRom_eq (c : Cartridge) (addr : Word) (v : Byte) :
    c.writeRom addr v = { c with ramEnabled := (c.writeRom addr v).ramEnabled, romBank := (c.writeRom addr v).romBank,
                                 ramBank := (c.writeRom addr v).ramBank } := by
  unfold Cartridge.writeRom
  split
  · next k _ => cases k <;> rfl
  · rfl

/-- Everything a write can do to the platform: a control write in the ROM range, a byte into a store that has the place, or
nothing (denied cartridge RAM, or a place that holds no byte). -/
theorem Platform.write_cases (p q : Platform) (addr : Word) (v : Byte) (h : p.write addr v = some q) :
    (addr.toNat < 0x8000 ∧ q = { p with cart := p.cart.writeRom addr v }) ∨
    (0x8000 ≤ addr.toNat ∧ addr.toNat < 0xA000 ∧ q = { p with vram := Memory.write p.vram addr.toNat v }) ∨
    (0xC000 ≤ addr.toNat ∧ addr.toNat < 0xE000 ∧ q = { p with wram := Memory.write p.wram addr.toNat v }) ∨
    (0xA000 ≤ addr.toNat ∧ addr.toNat < 0xC000 ∧ ∃ k, k < p.cart.config.ramSize ∧ p.route addr = .cartRam k ∧
      q = { p with cart := { p.cart with ram := Memory.write p.cart.ram k v } }) ∨
    (0xA000 ≤ addr.toNat ∧ addr.toNat < 0xC000 ∧ q = p) := by
  unfold Platform.write at h
  rcases p.route_cases addr with ⟨h1, e⟩ | ⟨h1, h2, e⟩ | ⟨h1, h2, e⟩ | ⟨h1, h2, e⟩ | ⟨h1, e⟩
  · rw [e] at h; cases h; exact .inl ⟨h1, rfl⟩
  · rw [e] at h; cases h; exact .inr (.inl ⟨h1, h2, rfl⟩)
  · rcases p.cart.ramRoute_cases addr with e' | ⟨k, hk, e'⟩ | ⟨_, _, e'⟩ <;> rw [e, e'] at h <;> cases h
    · exact .inr (.inr (.inr (.inr ⟨h1, h2, rfl⟩)))
    · exact .inr (.inr (.inr (.inl ⟨h1, h2, k, hk, e.trans e', rfl⟩)))
    · exact .inr (.inr (.inr (.inr ⟨h1, h2, rfl⟩)))
  · rw [e] at h; cases h; exact .inr (.inr (.inl ⟨h1, h2, rfl⟩))
  · rw [e] at h; cases h

/-- A write to the machine's bus is the platform's write. -/
theorem State.busWrite_ok_iff (s t : State) (addr : Word) (v : Byte) :
    s.busWrite addr v = .ok t ↔ s.bus.write addr v = some t.bus ∧ t = { s with bus := t.bus } := by
  rw [State.busWrite_eq]
  cases h : s.bus.write addr v with
  | none => simp
  | some q =>
    simp only [Except.ok.injEq, Option.some.injEq]
    constructor
    · rintro rfl; exact ⟨rfl, rfl⟩
    · rintro ⟨rfl, e⟩; exact e.symm

/-- A write to a wired address succeeds (20_memory.md R41). -/
theorem State.busWrite_wired (s : State) (addr : Word) (v : Byte) (h : addr.toNat < 0xE000) :
    ∃ t, s.busWrite addr v = .ok t := by
  have hr : s.bus.route addr ≠ .unwired := fun e => by
    have := (s.bus.route_eq_unwired_iff addr).1 e
    omega
  rw [State.busWrite_eq, Platform.write]
  split
  · exact ⟨_, rfl⟩
  · next e => split at e <;> first | exact absurd (by assumption) hr | cases e

/-- The fault of a bus write is the addressing fault of an unwired address. -/
theorem State.busWrite_error (s : State) (addr : Word) (v : Byte) (f : Fault) (h : s.busWrite addr v = .error f) :
    f = .addressing .write addr ∧ 0xE000 ≤ addr.toNat := by
  by_cases hw : addr.toNat < 0xE000
  · obtain ⟨t, ht⟩ := s.busWrite_wired addr v hw
    rw [ht] at h
    cases h
  · rw [s.busWrite_unwired addr v (by omega)] at h
    cases h
    exact ⟨rfl, by omega⟩

/-- A bus write leaves the core alone, and the ROM image and the parameters. -/
theorem State.busWrite_frame (s t : State) (addr : Word) (v : Byte) (h : s.busWrite addr v = .ok t) :
    t = { s with bus := t.bus } ∧ t.bus.cart.rom = s.bus.cart.rom ∧ t.bus.cart.romSize = s.bus.cart.romSize ∧
      t.bus.cart.config = s.bus.cart.config := by
  obtain ⟨hw, e⟩ := (s.busWrite_ok_iff t addr v).1 h
  refine ⟨e, ?_⟩
  rcases s.bus.write_cases t.bus addr v hw with ⟨_, e⟩ | ⟨_, _, e⟩ | ⟨_, _, e⟩ | ⟨_, _, k, _, _, e⟩ | ⟨_, _, e⟩ <;> rw [e] <;>
    simp
  rw [Cartridge.writeRom_eq]
  simp

/-- Every place but the one a write reaches answers what it answered. -/
theorem Platform.load_write_ne (p q : Platform) (addr : Word) (v : Byte) (h : p.write addr v = some q) (r : Route)
    (hr : r ≠ p.route addr) : q.load r = p.load r := by
  rcases p.write_cases q addr v h with ⟨_, e⟩ | ⟨h1, h2, e⟩ | ⟨h1, h2, e⟩ | ⟨h1, h2, k, hk, hk', e⟩ | ⟨_, _, e⟩ <;> rw [e]
  · rw [Cartridge.writeRom_eq]
    cases r <;> rfl
  · rcases p.route_cases addr with ⟨_, w⟩ | ⟨_, _, w⟩ | ⟨_, _, w⟩ | ⟨_, _, w⟩ | ⟨_, w⟩ <;> try omega
    rw [w] at hr
    cases r <;> try rfl
    next a => simp only [Platform.load]; rw [Memory.read_write_ne _ _ _ _ fun e => hr (by rw [e])]
  · rcases p.route_cases addr with ⟨_, w⟩ | ⟨_, _, w⟩ | ⟨_, _, w⟩ | ⟨_, _, w⟩ | ⟨_, w⟩ <;> try omega
    rw [w] at hr
    cases r <;> try rfl
    next a => simp only [Platform.load]; rw [Memory.read_write_ne _ _ _ _ fun e => hr (by rw [e])]
  · rw [hk'] at hr
    cases r <;> try rfl
    next a => simp only [Platform.load]; rw [Memory.read_write_ne _ _ _ _ fun e => hr (by rw [e])]

/-- A write to Video or Work RAM: it succeeds, is read back where the stores are canonical, leaves every other address, and
touches nothing but the two stores (20_memory.md R50). -/
theorem State.busWrite_plainRam (s : State) (addr : Word) (v : Byte)
    (h : (0x8000 ≤ addr.toNat ∧ addr.toNat < 0xA000) ∨ (0xC000 ≤ addr.toNat ∧ addr.toNat < 0xE000)) :
    ∃ t, s.busWrite addr v = .ok t ∧ t = { s with bus := { s.bus with vram := t.bus.vram, wram := t.bus.wram } } ∧
      (Memory.wf s.bus.vram = true → Memory.wf s.bus.wram = true → t.busRead addr = .ok v) ∧
      ∀ a, a ≠ addr → t.busRead a = s.busRead a := by
  obtain ⟨t, ht⟩ := s.busWrite_wired addr v (by omega)
  obtain ⟨hw, et⟩ := (s.busWrite_ok_iff t addr v).1 ht
  refine ⟨t, ht, ?_⟩
  have hq : t.bus = { s.bus with vram := t.bus.vram, wram := t.bus.wram } := by
    rcases s.bus.write_cases t.bus addr v hw with ⟨_, e⟩ | ⟨_, _, e⟩ | ⟨_, _, e⟩ | ⟨_, _, _, _, _, e⟩ | ⟨_, _, e⟩ <;>
      first | omega | rw [e]
  have hc : t.bus.cart = s.bus.cart := by rw [hq]
  refine ⟨?_, ?_, ?_⟩
  · rw [← hq]; exact et
  · intro hv hw'
    rw [State.busRead_eq, Platform.route_congr s.bus t.bus addr hc]
    rcases s.bus.write_cases t.bus addr v hw with ⟨_, e⟩ | ⟨_, _, e⟩ | ⟨_, _, e⟩ | ⟨_, _, _, _, _, e⟩ | ⟨_, _, e⟩ <;>
      rcases s.bus.route_cases addr with ⟨_, r⟩ | ⟨_, _, r⟩ | ⟨_, _, r⟩ | ⟨_, _, r⟩ | ⟨_, r⟩ <;> try omega
    · rw [r, e]; simp only [Platform.load]; rw [Memory.read_write_same _ _ _ hv]
    · rw [r, e]; simp only [Platform.load]; rw [Memory.read_write_same _ _ _ hw']
  · intro a ha
    have hne : s.bus.route a ≠ s.bus.route addr := by
      have hd : a.toNat ≠ addr.toNat := fun e => ha (BitVec.eq_of_toNat_eq e)
      rcases s.bus.route_cases addr with ⟨_, r⟩ | ⟨_, _, r⟩ | ⟨_, _, r⟩ | ⟨_, _, r⟩ | ⟨_, r⟩ <;> try omega
      all_goals
        rw [r]
        rcases s.bus.route_cases a with ⟨_, q⟩ | ⟨_, _, q⟩ | ⟨_, _, q⟩ | ⟨_, _, q⟩ | ⟨_, q⟩ <;> rw [q] <;> simp [hd]
        rcases s.bus.cart.ramRoute_cases a with e | ⟨_, _, e⟩ | ⟨_, _, e⟩ <;> rw [e] <;> simp
    rw [State.busRead_eq, State.busRead_eq, Platform.route_congr s.bus t.bus a hc, s.bus.load_write_ne t.bus addr v hw _ hne]

end Sys2Proof.Machine
end

