-- ==== Sys2Proof/Laws/Decode.lean ====
section
/-! SUPPORT. The decoder against the encoding table, once: what the opcode byte settles, and what a decoded sequence looks
like. -/

namespace Sys2Proof

open Machine

/-- The opcode byte settles an instruction encoded by it, up to the operand bytes it asks for (30_encoding.md R70, R78). -/
theorem decodePrimary_cases (op : Byte) (p : Pending) (h : decodePrimary op = some p) :
    (∃ i, p = .whole i ∧ encode i = [op]) ∨
    (∃ k, p = .needsByte k ∧ ∀ b, encode (k b) = [op, b]) ∨
    (∃ k, p = .needsWord k ∧ ∀ w, encode (k w) = [op, lo8 w, hi8 w]) := by
  unfold decodePrimary at h
  split at h <;> cases h <;>
    first
    | exact .inl ⟨_, rfl, rfl⟩
    | exact .inr (.inl ⟨_, rfl, fun _ => rfl⟩)
    | exact .inr (.inr ⟨_, rfl, fun _ => rfl⟩)

/-- A sequence that decodes starts with a covered opcode and has the operand bytes it asks for. -/
theorem decode_ok_cases (bs rest : List Byte) (i : Instr) (h : decode bs = .ok (i, rest)) :
    (∃ op, bs = op :: rest ∧ decodePrimary op = some (.whole i)) ∨
    (∃ op k b, bs = op :: b :: rest ∧ decodePrimary op = some (.needsByte k) ∧ i = k b) ∨
    (∃ op k lo hi, bs = op :: lo :: hi :: rest ∧ decodePrimary op = some (.needsWord k) ∧ i = k (cat hi lo)) := by
  cases bs with
  | nil => cases h
  | cons op bs =>
    simp only [decode] at h
    split at h <;> cases h
    · next e => exact .inl ⟨op, rfl, e⟩
    · next k b e => exact .inr (.inl ⟨op, k, b, rfl, e, rfl⟩)
    · next k lo hi e => exact .inr (.inr ⟨op, k, lo, hi, rfl, e, rfl⟩)

end Sys2Proof
end

