-- ==== Sys2Proof/Laws/Flags.lean ====
section
/-! SUPPORT. Packing and unpacking the flags, bit by bit. -/

namespace Sys2Proof.Machine

/-- Each flag is one bit of the packed byte (10_state.md R14). -/
theorem Flags.unpack_pack (f : Flags) : Flags.unpack f.pack = f := by
  obtain ⟨z, n, h, c⟩ := f
  cases z <;> cases n <;> cases h <;> cases c <;> rfl

/-- The borrow out of bit 7 and the zero flag of a compare as facts about numbers (41_alu.md R120). -/
theorem compareFlags_z (a n : Byte) : (compareFlags a n).z = decide (a = n) := by
  simp only [compareFlags, decide_eq_decide]
  constructor
  · intro h
    apply BitVec.eq_of_toNat_eq
    have h1 := congrArg BitVec.toNat h
    have ha := a.isLt
    have hn := n.isLt
    simp only [BitVec.toNat_sub, BitVec.toNat_ofNat] at h1
    omega
  · rintro rfl
    exact BitVec.sub_self a

end Sys2Proof.Machine
end

