-- ==== Sys2Proof/Laws/OnBus.lean ====
section
/-! SUPPORT. What the shared operations and a meaning can do on any bus, once each. -/

namespace Sys2Proof.Machine

variable {σ : Type}

/-- A push that succeeds is two bus writes, the low byte first (10_state.md R28). -/
theorem CoreOn.push16_ok_iff (m t : CoreOn σ) (bus : Bus σ) (w : Word) : m.push16 bus w = .ok t ↔
    ∃ q1 q2, bus.write m.bus (m.sp - 2#16) (lo8 w) = some q1 ∧ bus.write q1 (m.sp - 2#16 + 1#16) (hi8 w) = some q2 ∧
      t = { m with sp := m.sp - 2#16, bus := q2 } := by
  unfold CoreOn.push16
  constructor
  · intro h
    split at h
    · cases h
    · next m1 e =>
      obtain ⟨q1, h1, rfl⟩ := (CoreOn.memWrite_ok_iff _ _ _ _ _).1 e
      obtain ⟨q2, h2, rfl⟩ := (CoreOn.memWrite_ok_iff _ _ _ _ _).1 h
      exact ⟨q1, q2, h1, h2, rfl⟩
  · rintro ⟨q1, q2, h1, h2, rfl⟩
    rw [(CoreOn.memWrite_ok_iff (m.setSp (m.sp - 2#16)) _ _ _ _).2 ⟨q1, h1, rfl⟩]
    exact (CoreOn.memWrite_ok_iff _ _ _ _ _).2 ⟨q2, h2, rfl⟩

/-- A push fails only with the addressing fault of one of its two writes. -/
theorem CoreOn.push16_error (m : CoreOn σ) (bus : Bus σ) (w : Word) (f : Fault) (h : m.push16 bus w = .error f) :
    (bus.write m.bus (m.sp - 2#16) (lo8 w) = none ∧ f = .addressing .write (m.sp - 2#16)) ∨
    ∃ q, bus.write m.bus (m.sp - 2#16) (lo8 w) = some q ∧ bus.write q (m.sp - 2#16 + 1#16) (hi8 w) = none ∧
      f = .addressing .write (m.sp - 2#16 + 1#16) := by
  unfold CoreOn.push16 at h
  split at h
  · next g e =>
    cases h
    exact .inl ((CoreOn.memWrite_error_iff (m.setSp (m.sp - 2#16)) _ _ _ _).1 e)
  · next m1 e =>
    obtain ⟨q, h1, rfl⟩ := (CoreOn.memWrite_ok_iff _ _ _ _ _).1 e
    obtain ⟨h2, h3⟩ := (CoreOn.memWrite_error_iff _ _ _ _ _).1 h
    exact .inr ⟨q, h1, h2, h3⟩

/-- `Fetch8()` answers the bus's byte at PC and moves PC on (30_encoding.md R73). -/
theorem CoreOn.fetch8_ok_iff (m t : CoreOn σ) (bus : Bus σ) (b : Byte) : m.fetch8 bus = .ok (b, t) ↔
    ∃ q, bus.read m.bus m.pc = some (b, q) ∧ t = { m with pc := m.pc + 1#16, bus := q } :=
  CoreOn.memRead_ok_iff _ _ _ _ _

/-- `Fetch8()` fails with the bus's fault. -/
theorem CoreOn.fetch8_error_iff (m : CoreOn σ) (bus : Bus σ) (f : Fault) : m.fetch8 bus = .error f ↔
    bus.read m.bus m.pc = none ∧ f = .addressing .read m.pc :=
  CoreOn.memRead_error_iff _ _ _ _

/-- A fetch that succeeds moves PC past the instruction and changes nothing else but the bus's state (10_state.md R25). -/
theorem CoreOn.fetchInstr_frame (m m' : CoreOn σ) (bus : Bus σ) (i : Instr) (h : m.fetchInstr bus = .ok (i, m')) :
    ∃ q, m' = { m with pc := m.pc + BitVec.ofNat 16 i.length, bus := q } := by
  unfold CoreOn.fetchInstr at h
  split at h
  · cases h
  · next op m1 e1 =>
    obtain ⟨q1, -, rfl⟩ := (CoreOn.fetch8_ok_iff _ _ _ _).1 e1
    split at h
    · cases h
    · next j hd =>
      cases h
      have hl : i.length = 1 := by unfold decodePrimary at hd; split at hd <;> cases hd <;> rfl
      exact ⟨q1, by rw [hl]⟩
    · next k hd =>
      split at h
      · cases h
      · next b m2 e2 =>
        obtain ⟨q2, -, rfl⟩ := (CoreOn.fetch8_ok_iff _ _ _ _).1 e2
        cases h
        have hl : (k b).length = 2 := by unfold decodePrimary at hd; split at hd <;> cases hd <;> rfl
        exact ⟨q2, by rw [hl]; simp [BitVec.add_assoc]⟩
    · next k hd =>
      split at h
      · cases h
      · next w m2 e2 =>
        unfold CoreOn.fetch16 at e2
        split at e2
        · cases e2
        · next lo m3 e3 =>
          obtain ⟨q2, -, rfl⟩ := (CoreOn.fetch8_ok_iff _ _ _ _).1 e3
          split at e2
          · cases e2
          · next hi m4 e4 =>
            obtain ⟨q3, -, rfl⟩ := (CoreOn.fetch8_ok_iff _ _ _ _).1 e4
            cases e2
            cases h
            have hl : (k (cat hi lo)).length = 3 := by unfold decodePrimary at hd; (split at hd <;> cases hd); rfl
            exact ⟨q3, by rw [hl]; simp [BitVec.add_assoc]⟩

theorem execOn_of_tag (bus : Bus σ) (i : Instr) (t : Tag) (m : CoreOn σ) (h : i.tag = t) :
    execOn bus i m = execTag bus t i.byteOperand i.wordOperand m := by
  rw [execOn, h]

/-- Where a next state comes from, on any bus: an update of registers, flags and PC, one read, one write, or a push. -/
theorem execOn_next_cases (bus : Bus σ) (i : Instr) (m t : CoreOn σ) (h : execOn bus i m = .next t) :
    (t = { m with regs := t.regs, flags := t.flags, pc := t.pc } ∧ (∀ v, i.tag ≠ .rst v) ∧ (∀ p r, i.tag ≠ .stRrR p r) ∧
      ∀ r p, i.tag ≠ .ldRRr r p) ∨
    (∃ r p b q, i.tag = .ldRRr r p ∧ bus.read m.bus (m.pair p) = some (b, q) ∧ t = { m with bus := q }.setReg r b) ∨
    (∃ p r q, i.tag = .stRrR p r ∧ bus.write m.bus (m.pair p) (m.reg r) = some q ∧ t = { m with bus := q }) ∨
    (∃ v m', i.tag = .rst v ∧ m.push16 bus m.pc = .ok m' ∧ t = m'.setPc v) := by
  unfold execOn execTag at h
  split at h <;> rename_i ht
  · cases h; exact .inl ⟨rfl, by simp [ht], by simp [ht], by simp [ht]⟩
  · cases h; exact .inl ⟨rfl, by simp [ht], by simp [ht], by simp [ht]⟩
  · cases h; exact .inl ⟨by split <;> rfl, by simp [ht], by simp [ht], by simp [ht]⟩
  · cases h; exact .inl ⟨rfl, by simp [ht], by simp [ht], by simp [ht]⟩
  · next p => cases h; exact .inl ⟨by cases p <;> rfl, by simp [ht], by simp [ht], by simp [ht]⟩
  · cases h; exact .inl ⟨rfl, by simp [ht], by simp [ht], by simp [ht]⟩
  · next v =>
    unfold restart at h
    split at h
    · next m' e => cases h; exact .inr (.inr (.inr ⟨v, m', ht, e, rfl⟩))
    · cases h
  · next p r =>
    unfold storeAtPair finish at h
    split at h
    · next m' e =>
      cases h
      obtain ⟨q, h1, h2⟩ := (CoreOn.memWrite_ok_iff _ _ _ _ _).1 e
      exact .inr (.inr (.inl ⟨p, r, q, ht, h1, h2⟩))
    · cases h
  · next r p =>
    unfold loadFromPair CoreOn.withByteAt at h
    split at h
    · next b m' e =>
      cases h
      obtain ⟨q, h1, rfl⟩ := (CoreOn.memRead_ok_iff _ _ _ _ _).1 e
      exact .inr (.inl ⟨r, p, b, q, ht, h1, rfl⟩)
    · cases h
  · next r => cases h; exact .inl ⟨by cases r <;> rfl, by simp [ht], by simp [ht], by simp [ht]⟩
  · cases h

/-- What a meaning can do on any bus when it gives no next state: PREFIX's decode fault, or the addressing fault of an access
the bus does not answer. Nothing is refused. -/
theorem execOn_stop_cases (bus : Bus σ) (i : Instr) (m : CoreOn σ) :
    (∃ t, execOn bus i m = .next t) ∨
    (i.tag = .escape ∧ execOn bus i m = .fault (.decodeExtended i.byteOperand (m.pc - 2#16))) ∨
    (∃ k q a, bus.Refuses k q a ∧ execOn bus i m = .fault (.addressing k a)) := by
  cases ht : i.tag <;> rw [execOn_of_tag bus i _ m ht]
  case rst v =>
    simp only [execTag, restart]
    split
    · exact .inl ⟨_, rfl⟩
    · next f e =>
      rcases m.push16_error bus _ f e with ⟨h, rfl⟩ | ⟨q, _, h, rfl⟩
      · exact .inr (.inr ⟨.write, _, _, ⟨_, h⟩, rfl⟩)
      · exact .inr (.inr ⟨.write, _, _, ⟨_, h⟩, rfl⟩)
  case stRrR p r =>
    simp only [execTag, storeAtPair, finish]
    split
    · exact .inl ⟨_, rfl⟩
    · next f e =>
      obtain ⟨h, rfl⟩ := (CoreOn.memWrite_error_iff _ _ _ _ _).1 e
      exact .inr (.inr ⟨.write, _, _, ⟨_, h⟩, rfl⟩)
  case ldRRr r p =>
    simp only [execTag, loadFromPair, CoreOn.withByteAt]
    split
    · exact .inl ⟨_, rfl⟩
    · next f e =>
      obtain ⟨h, rfl⟩ := (CoreOn.memRead_error_iff _ _ _ _).1 e
      exact .inr (.inr ⟨.read, _, _, h, rfl⟩)
  case escape => exact .inr (.inl ⟨rfl, rfl⟩)
  all_goals exact .inl ⟨_, rfl⟩

end Sys2Proof.Machine
end

