-- ==== Sys2Proof/Laws/Exec.lean ====
section
/-! SUPPORT. What `exec` can do: it is the core on the reference bus, so a next state comes from an update of registers, flags
and PC, from one bus read or write, or from a push. -/

namespace Sys2Proof.Machine

/-- A meaning of the machine is the core's meaning on the reference bus. -/
theorem exec_eq_onReference (i : Instr) (s : State) : exec i s = onReference (execOn referenceBus i) s := by
  cases i <;> rfl

theorem exec_of_xor (i : Instr) (r : RegSel) (s : State) (h : i.tag = .xorR r) : exec i s = onReference (xorWithA r) s := by
  cases i <;> cases h <;> rfl

theorem exec_of_inc (i : Instr) (p : PairSel) (s : State) (h : i.tag = .incRr p) :
    exec i s = onReference (incrementPair p) s := by
  cases i <;> cases h <;> rfl

/-- A restart of the machine, by its push (40_jumps.md R106). -/
theorem exec_of_rst (i : Instr) (v : Word) (s : State) (h : i.tag = .rst v) :
    exec i s = onReference (restart referenceBus v) s := by
  cases i <;> cases h <;> rfl

/-- A store of the machine, by its bus write (42_loads.md R148). -/
theorem exec_of_store (i : Instr) (p : PairSel) (r : RegSel) (s : State) (h : i.tag = .stRrR p r) :
    exec i s = finish (s.busWrite (s.pair p) (s.reg r)) := by
  have e : exec i s = onReference (storeAtPair referenceBus p r) s := by cases i <;> cases h <;> rfl
  rw [e, State.busWrite, onReference, storeAtPair]
  cases s.memWrite referenceBus (s.pair p) (s.reg r) <;> rfl

/-- A load of the machine, by its bus read (42_loads.md R160). -/
theorem exec_of_load (i : Instr) (p : PairSel) (r : RegSel) (s : State) (h : i.tag = .ldRRr r p) :
    exec i s = finish ((s.busRead (s.pair p)).map fun b => (s.setReg r b).toState) := by
  have e : exec i s = onReference (loadFromPair referenceBus r p) s := by cases i <;> cases h <;> rfl
  rw [e, onReference, loadFromPair, CoreOn.withByteAt, CoreOn.memRead_eq_busRead]
  change _ = finish (Except.map _ (s.toCoreOn.toState.busRead (s.pair p)))
  cases s.toCoreOn.toState.busRead (s.pair p) <;> rfl

/-- A push on the reference bus is two writes of the machine, the low byte first (10_state.md R28). -/
theorem State.push16_ok (s : State) (m : CoreOn Platform) (w : Word) (h : s.push16 referenceBus w = .ok m) :
    ∃ s1, State.busWrite { s with sp := s.sp - 2#16 } (s.sp - 2#16) (lo8 w) = .ok s1 ∧
      s1.busWrite (s.sp - 2#16 + 1#16) (hi8 w) = .ok m.toState := by
  obtain ⟨q1, q2, h1, h2, rfl⟩ := (CoreOn.push16_ok_iff _ _ _ _).1 h
  exact ⟨{ s with sp := s.sp - 2#16, bus := q1 }, (State.busWrite_ok_iff _ _ _ _).2 ⟨h1, rfl⟩,
    (State.busWrite_ok_iff _ _ _ _).2 ⟨h2, rfl⟩⟩

/-- A push on the reference bus fails only with the addressing fault of an unwired address. -/
theorem State.push16_error (s : State) (w : Word) (f : Fault) (h : s.push16 referenceBus w = .error f) :
    ∃ a : Word, 0xE000 ≤ a.toNat ∧ f = .addressing .write a := by
  have unwired : ∀ (p : Platform) (a : Word) (v : Byte), p.write a v = none → 0xE000 ≤ a.toNat := by
    intro p a v e
    by_contra hc
    obtain ⟨t, ht⟩ := State.busWrite_wired { s with bus := p } a v (by omega)
    rw [State.busWrite_eq, e] at ht
    cases ht
  rcases s.toCoreOn.push16_error _ _ f h with ⟨e, rfl⟩ | ⟨q, _, e, rfl⟩ <;> exact ⟨_, unwired _ _ _ e, rfl⟩

/-- Where a next state of the machine comes from. Everything but a store and a restart leaves SP and the platform. -/
theorem exec_next_cases (i : Instr) (s t : State) (h : exec i s = .next t) :
    (t = { s with regs := t.regs, flags := t.flags, pc := t.pc } ∧ (∀ v, i.tag ≠ .rst v) ∧
      ∀ p r, i.tag ≠ .stRrR p r) ∨
    (∃ p r, i.tag = .stRrR p r ∧ s.busWrite (s.pair p) (s.reg r) = .ok t) ∨
    (∃ v m, i.tag = .rst v ∧ s.push16 referenceBus s.pc = .ok m ∧ t = (m.setPc v).toState) := by
  rw [exec_eq_onReference, onReference_next_iff] at h
  rcases execOn_next_cases _ _ _ _ h with ⟨e, h1, h2, -⟩ | ⟨r, p, b, q, ht, hr, e⟩ | ⟨p, r, q, ht, hw, e⟩ | ⟨v, m, ht, hp, e⟩
  · exact .inl ⟨congrArg CoreOn.toState e, h1, h2⟩
  · refine .inl ⟨?_, by simp [ht], by simp [ht]⟩
    have hq : q = s.bus := by
      rw [referenceBus_read] at hr
      cases hl : s.bus.load (s.bus.route (s.pair p)) <;> rw [hl] at hr <;> cases hr
      rfl
    subst hq
    have := congrArg CoreOn.toState e
    rw [State.toCoreOn_toState] at this
    rw [this]
    cases r <;> rfl
  · refine .inr (.inl ⟨p, r, ht, (State.busWrite_ok_iff _ _ _ _).2 ?_⟩)
    have hb : t.bus = q := by rw [e]
    exact ⟨by rw [hb]; exact hw, by rw [hb]; exact congrArg CoreOn.toState e⟩
  · exact .inr (.inr ⟨v, m, ht, hp, congrArg CoreOn.toState e⟩)

/-- What `exec` can do when it gives no next state: PREFIX's decode fault, or the addressing fault of an unwired address.
Nothing is refused. -/
theorem exec_stop_cases (i : Instr) (s : State) :
    (∃ t, exec i s = .next t) ∨
    (∃ x, i = .prefixX x ∧ exec i s = .fault (.decodeExtended x (s.pc - 2#16))) ∨
    (∃ (k : Access) (a : Word), 0xE000 ≤ a.toNat ∧ exec i s = .fault (.addressing k a)) := by
  rw [exec_eq_onReference]
  unfold onReference
  rcases execOn_stop_cases referenceBus i s.toCoreOn with ⟨t, e⟩ | ⟨ht, e⟩ | ⟨k, q, a, hr, e⟩ <;> rw [e]
  · exact .inl ⟨_, rfl⟩
  · refine .inr (.inl ?_)
    cases i <;> cases ht
    exact ⟨_, rfl, rfl⟩
  · refine .inr (.inr ⟨k, a, ?_, rfl⟩)
    by_contra hc
    cases k with
    | read =>
      obtain ⟨b, hb⟩ := State.busRead_wired { s with bus := q } a (by omega)
      have h0 : q.load (q.route a) = none := by
        simpa [Bus.Refuses] using hr
      rw [State.busRead_eq, h0] at hb
      cases hb
    | write =>
      obtain ⟨v, hv⟩ := hr
      obtain ⟨t, ht⟩ := State.busWrite_wired { s with bus := q } a v (by omega)
      rw [referenceBus_write] at hv
      rw [State.busWrite_eq, hv] at ht
      cases ht

end Sys2Proof.Machine
end

