-- ==== Sys2Proof/Laws/Fetch.lean ====
section
/-! SUPPORT. What fetching does, and an induction over the states of a run. -/

namespace Sys2Proof.Machine

/-- `Fetch8()` on the reference bus answers the byte at PC and moves PC on (30_encoding.md R73). -/
theorem CoreOn.fetch8_reference (m : CoreOn Platform) :
    m.fetch8 referenceBus = (m.toState.busRead m.pc).map fun b => (b, m.setPc (m.pc + 1#16)) := by
  rw [CoreOn.fetch8, CoreOn.memRead_eq_busRead]
  rw [State.busRead_congr m.toState m.pcNext.2.toState _ rfl]
  rfl

theorem CoreOn.fetch8_reference_ok_iff (m t : CoreOn Platform) (b : Byte) :
    m.fetch8 referenceBus = .ok (b, t) ↔ m.toState.busRead m.pc = .ok b ∧ t = m.setPc (m.pc + 1#16) := by
  rw [CoreOn.fetch8_reference]
  cases m.toState.busRead m.pc <;> simp [Except.map, eq_comm]

theorem CoreOn.fetch8_reference_error_iff (m : CoreOn Platform) (f : Fault) :
    m.fetch8 referenceBus = .error f ↔ m.toState.busRead m.pc = .error f := by
  rw [CoreOn.fetch8_reference]
  cases m.toState.busRead m.pc <;> simp [Except.map]

@[simp] theorem State.busRead_setPc (s : State) (w a : Word) : (s.setPc w).toState.busRead a = s.busRead a :=
  State.busRead_congr s (s.setPc w).toState a rfl

/-- Moving PC changes no byte anywhere. -/
theorem State.bytesAt_setPc (s : State) (w a : Word) (bs : List Byte) :
    (s.setPc w).toState.bytesAt a bs ↔ s.bytesAt a bs := by
  induction bs generalizing a with
  | nil => rfl
  | cons b bs ih => simp only [State.bytesAt, State.busRead_setPc, ih]

/-- What holds after construction and is kept by every step holds of every state of a run. -/
theorem invariant_of_reachable (P : State → Prop) (boot : ∀ i s, construct i = .ok s → P s)
    (keep : ∀ s t, P s → Sys2Proof.Machine.step s = .next t → P t) (s : State) (h : Reachable s) : P s := by
  induction h with
  | boot i s hs => exact boot i s hs
  | step s t _ hs ih => exact keep s t ih hs

/-- A run of one more step is the step and then the run. -/
theorem run_succ (k : Nat) (s : State) : Sys2Proof.core.run (k + 1) s =
    match Sys2Proof.Machine.step s with
    | .next t => Sys2Proof.core.run k t
    | .fault f => .fault f
    | .refused r => .refused r := by
  simp only [Host.Core.run, show Host.Core.step Sys2Proof.core s = Sys2Proof.Machine.step s from rfl]
  cases Sys2Proof.Machine.step s <;> rfl

/-- What every step keeps holds after any number of steps. -/
theorem invariant_of_run (P : State → Prop) (keep : ∀ s t, P s → Sys2Proof.Machine.step s = .next t → P t) (k : Nat)
    (s t : State) (hs : P s) (h : Sys2Proof.core.run k s = .next t) : P t := by
  induction k generalizing s with
  | zero => cases h; exact hs
  | succ k ih =>
    rw [run_succ] at h
    split at h
    · next s' e => exact ih s' (keep s s' hs e) h
    · cases h
    · cases h

end Sys2Proof.Machine
end

