-- ==== Sys2Proof/Laws/PerInstr.lean ====
section
/-! SUPPORT. For every instruction, as syntax: its tag is well formed, its encoding has the length its descriptor says and
starts with its opcode (30_encoding.md R70, R76, R78). -/

namespace Sys2Proof.Laws.Shape

/-- What the opcode map says of an instruction's shape. -/
def Statement (i : Instr) : Prop :=
  i.wellFormed = true ∧ (encode i).length = i.length ∧ (encode i).head? = some i.opcode

theorem nop : Statement .nop := ⟨rfl, rfl, rfl⟩
theorem ldAtBcA : Statement .ldAtBcA := ⟨rfl, rfl, rfl⟩
theorem incBc : Statement .incBc := ⟨rfl, rfl, rfl⟩
theorem ldBN (n : Byte) : Statement (.ldBN n) := ⟨rfl, rfl, rfl⟩
theorem ldAAtBc : Statement .ldAAtBc := ⟨rfl, rfl, rfl⟩
theorem ldCN (n : Byte) : Statement (.ldCN n) := ⟨rfl, rfl, rfl⟩
theorem ldAtDeA : Statement .ldAtDeA := ⟨rfl, rfl, rfl⟩
theorem incDe : Statement .incDe := ⟨rfl, rfl, rfl⟩
theorem ldDN (n : Byte) : Statement (.ldDN n) := ⟨rfl, rfl, rfl⟩
theorem ldAAtDe : Statement .ldAAtDe := ⟨rfl, rfl, rfl⟩
theorem ldEN (n : Byte) : Statement (.ldEN n) := ⟨rfl, rfl, rfl⟩
theorem jrNz (e : Byte) : Statement (.jrNz e) := ⟨rfl, rfl, rfl⟩
theorem incHl : Statement .incHl := ⟨rfl, rfl, rfl⟩
theorem ldHN (n : Byte) : Statement (.ldHN n) := ⟨rfl, rfl, rfl⟩
theorem jrZ (e : Byte) : Statement (.jrZ e) := ⟨rfl, rfl, rfl⟩
theorem ldLN (n : Byte) : Statement (.ldLN n) := ⟨rfl, rfl, rfl⟩
theorem jrNc (e : Byte) : Statement (.jrNc e) := ⟨rfl, rfl, rfl⟩
theorem jrC (e : Byte) : Statement (.jrC e) := ⟨rfl, rfl, rfl⟩
theorem ldAN (n : Byte) : Statement (.ldAN n) := ⟨rfl, rfl, rfl⟩
theorem ldBAtHl : Statement .ldBAtHl := ⟨rfl, rfl, rfl⟩
theorem ldCAtHl : Statement .ldCAtHl := ⟨rfl, rfl, rfl⟩
theorem ldDAtHl : Statement .ldDAtHl := ⟨rfl, rfl, rfl⟩
theorem ldEAtHl : Statement .ldEAtHl := ⟨rfl, rfl, rfl⟩
theorem ldHAtHl : Statement .ldHAtHl := ⟨rfl, rfl, rfl⟩
theorem ldLAtHl : Statement .ldLAtHl := ⟨rfl, rfl, rfl⟩
theorem ldAtHlB : Statement .ldAtHlB := ⟨rfl, rfl, rfl⟩
theorem ldAtHlC : Statement .ldAtHlC := ⟨rfl, rfl, rfl⟩
theorem ldAtHlD : Statement .ldAtHlD := ⟨rfl, rfl, rfl⟩
theorem ldAtHlE : Statement .ldAtHlE := ⟨rfl, rfl, rfl⟩
theorem ldAtHlH : Statement .ldAtHlH := ⟨rfl, rfl, rfl⟩
theorem ldAtHlL : Statement .ldAtHlL := ⟨rfl, rfl, rfl⟩
theorem ldAtHlA : Statement .ldAtHlA := ⟨rfl, rfl, rfl⟩
theorem ldAAtHl : Statement .ldAAtHl := ⟨rfl, rfl, rfl⟩
theorem xorB : Statement .xorB := ⟨rfl, rfl, rfl⟩
theorem xorC : Statement .xorC := ⟨rfl, rfl, rfl⟩
theorem xorD : Statement .xorD := ⟨rfl, rfl, rfl⟩
theorem xorE : Statement .xorE := ⟨rfl, rfl, rfl⟩
theorem xorH : Statement .xorH := ⟨rfl, rfl, rfl⟩
theorem xorL : Statement .xorL := ⟨rfl, rfl, rfl⟩
theorem xorA : Statement .xorA := ⟨rfl, rfl, rfl⟩
theorem jpNn (nn : Word) : Statement (.jpNn nn) := ⟨rfl, rfl, rfl⟩
theorem rst00 : Statement .rst00 := ⟨rfl, rfl, rfl⟩
theorem prefixX (x : Byte) : Statement (.prefixX x) := ⟨rfl, rfl, rfl⟩
theorem rst08 : Statement .rst08 := ⟨rfl, rfl, rfl⟩
theorem rst10 : Statement .rst10 := ⟨rfl, rfl, rfl⟩
theorem rst18 : Statement .rst18 := ⟨rfl, rfl, rfl⟩
theorem rst20 : Statement .rst20 := ⟨rfl, rfl, rfl⟩
theorem rst28 : Statement .rst28 := ⟨rfl, rfl, rfl⟩
theorem rst30 : Statement .rst30 := ⟨rfl, rfl, rfl⟩
theorem cpN (n : Byte) : Statement (.cpN n) := ⟨rfl, rfl, rfl⟩
theorem rst38 : Statement .rst38 := ⟨rfl, rfl, rfl⟩

end Sys2Proof.Laws.Shape
end

