-- ==== Sys2Proof/Tests/Slice0.lean ====
section
/-! SUPPORT. Tests. Expected results are the spec's own worked examples and vectors (95_test_vectors.md, and the examples in
the instruction rules), and words written out from 30_encoding.md R78. The second half holds a witness for the hypotheses of
every statement. -/

namespace Sys2Proof.Machine

/-- A state with another byte register. -/
def State.putReg (s : State) (r : RegSel) (v : Byte) : State := (s.setReg r v).toState

/-- A state with another pair. -/
def State.putPair (s : State) (p : PairSel) (w : Word) : State := (s.setPair p w).toState

/-- A state with other flags. -/
def State.putFlags (s : State) (f : Flags) : State := (s.setFlags f).toState

end Sys2Proof.Machine

namespace Sys2Proof.Tests

open Sys2Proof.Machine Sys2Proof.Claims

/-! ### Helpers -/

/-- The state an outcome goes on with. -/
def nextOf : Host.Outcome State Fault Refusal → Option State
  | .next t => some t
  | _ => none

/-- The fault an outcome ends in. -/
def faultOf : Host.Outcome State Fault Refusal → Option Fault
  | .fault f => some f
  | _ => none

/-- The reset state of TESTBUS (95_test_vectors.md section 1) with PC and bytes at it. -/
def code (pc : Word) (bytes : List Byte) : State := { State.reset with pc := pc }.placeBytes pc bytes

/-- A byte in memory. -/
def poke (s : State) (addr : Word) (v : Byte) : State := s.placeByte addr v

/-- What one step leaves in a field. -/
def after {α : Type} (s : State) (f : State → α) : Option α := (nextOf (step s)).map f

/-- The byte at an address. -/
def byteAt (s : State) (addr : Word) : Option Byte := (s.busRead addr).toOption

/-- All four flags, in the order Z, N, H, C. -/
def flagsOf (z n h c : Bool) : Flags := { z := z, n := n, h := h, c := c }

/-! ### Well-formedness -/

theorem test_wf_refuses_inc_af : Tag.wellFormed (.incRr .af) = false := by decide
theorem test_wf_refuses_store_bc_b : Tag.wellFormed (.stRrR .bc .b) = false := by decide
theorem test_wf_refuses_store_af : Tag.wellFormed (.stRrR .af .a) = false := by decide
theorem test_wf_refuses_load_de : Tag.wellFormed (.ldRRr .b .de) = false := by decide
theorem test_wf_refuses_load_af : Tag.wellFormed (.ldRRr .a .af) = false := by decide
theorem test_wf_refuses_vector : Tag.wellFormed (.rst 0x0001#16) = false ∧ Tag.wellFormed (.rst 0x0040#16) = false := by decide
theorem test_wf_refuses_lengths : lengthOk 0 = false ∧ lengthOk 4 = false := by decide
theorem test_wf_accepts : Tag.wellFormed (.incRr .hl) = true ∧ Tag.wellFormed (.stRrR .hl .h) = true ∧
    Tag.wellFormed (.ldRRr .a .de) = true ∧ Tag.wellFormed (.rst 0x0038#16) = true := by decide

/-! ### Decoding: every constructor, from words written out from 30_encoding.md R78 and R71 -/

theorem test_decode_column_0 :
    decodeTableWord 8 0b00000000 = some .nop ∧ decodeTableWord 8 0b00000010 = some .ldAtBcA ∧
    decodeTableWord 8 0b00000011 = some .incBc ∧ decodeTableWord 16 0x0F06 = some (.ldBN 0x0F#8) ∧
    decodeTableWord 8 0b00001010 = some .ldAAtBc ∧ decodeTableWord 16 0xFF0E = some (.ldCN 0xFF#8) := by decide
theorem test_decode_column_1 :
    decodeTableWord 8 0b00010010 = some .ldAtDeA ∧ decodeTableWord 8 0b00010011 = some .incDe ∧
    decodeTableWord 16 0x0116 = some (.ldDN 0x01#8) ∧ decodeTableWord 8 0b00011010 = some .ldAAtDe ∧
    decodeTableWord 16 0x501E = some (.ldEN 0x50#8) := by decide
theorem test_decode_column_2 :
    decodeTableWord 16 0xF820 = some (.jrNz 0xF8#8) ∧ decodeTableWord 8 0b00100011 = some .incHl ∧
    decodeTableWord 16 0xC026 = some (.ldHN 0xC0#8) ∧ decodeTableWord 16 0x1028 = some (.jrZ 0x10#8) ∧
    decodeTableWord 16 0x002E = some (.ldLN 0x00#8) := by decide
theorem test_decode_column_3 :
    decodeTableWord 16 0x0430 = some (.jrNc 0x04#8) ∧ decodeTableWord 16 0x0238 = some (.jrC 0x02#8) ∧
    decodeTableWord 16 0x5A3E = some (.ldAN 0x5A#8) := by decide
theorem test_decode_loads :
    decodeTableWord 8 0b01000110 = some .ldBAtHl ∧ decodeTableWord 8 0b01001110 = some .ldCAtHl ∧
    decodeTableWord 8 0b01010110 = some .ldDAtHl ∧ decodeTableWord 8 0b01011110 = some .ldEAtHl ∧
    decodeTableWord 8 0b01100110 = some .ldHAtHl ∧ decodeTableWord 8 0b01101110 = some .ldLAtHl ∧
    decodeTableWord 8 0b01111110 = some .ldAAtHl := by decide
theorem test_decode_stores :
    decodeTableWord 8 0b01110000 = some .ldAtHlB ∧ decodeTableWord 8 0b01110001 = some .ldAtHlC ∧
    decodeTableWord 8 0b01110010 = some .ldAtHlD ∧ decodeTableWord 8 0b01110011 = some .ldAtHlE ∧
    decodeTableWord 8 0b01110100 = some .ldAtHlH ∧ decodeTableWord 8 0b01110101 = some .ldAtHlL ∧
    decodeTableWord 8 0b01110111 = some .ldAtHlA := by decide
theorem test_decode_xor :
    decodeTableWord 8 0b10101000 = some .xorB ∧ decodeTableWord 8 0b10101001 = some .xorC ∧
    decodeTableWord 8 0b10101010 = some .xorD ∧ decodeTableWord 8 0b10101011 = some .xorE ∧
    decodeTableWord 8 0b10101100 = some .xorH ∧ decodeTableWord 8 0b10101101 = some .xorL ∧
    decodeTableWord 8 0b10101111 = some .xorA := by decide
theorem test_decode_restarts :
    decodeTableWord 8 0b11000111 = some .rst00 ∧ decodeTableWord 8 0b11001111 = some .rst08 ∧
    decodeTableWord 8 0b11010111 = some .rst10 ∧ decodeTableWord 8 0b11011111 = some .rst18 ∧
    decodeTableWord 8 0b11100111 = some .rst20 ∧ decodeTableWord 8 0b11101111 = some .rst28 ∧
    decodeTableWord 8 0b11110111 = some .rst30 ∧ decodeTableWord 8 0b11111111 = some .rst38 := by decide
theorem test_decode_rest :
    decodeTableWord 24 0x1234C3 = some (.jpNn 0x1234#16) ∧ decodeTableWord 8 0xC3 = some (.jpNn 0x0000#16) ∧
    decodeTableWord 16 0x37CB = some (.prefixX 0x37#8) ∧ decodeTableWord 16 0x80FE = some (.cpN 0x80#8) := by decide
/-- V-DEC-2: the nearest uncovered neighbours. -/
theorem test_decode_refuses_neighbours :
    ∀ op ∈ [0x01, 0x33, 0x36, 0x18, 0x76, 0xAE, 0xB8, 0xEE, 0xC2, 0xCD, 0xC9, 0x22, 0x2A, 0x32, 0x3A, 0x40, 0x7F, 0xD3],
      decodeTableWord 8 op = none := by decide
theorem test_decode_short_bytes :
    decode [] = .error .empty ∧ decode [0x3E#8] = .error (.truncated 0x3E#8) ∧
    decode [0xC3#8, 0x00#8] = .error (.truncated 0xC3#8) ∧ decode [0xD3#8] = .error (.uncovered 0xD3#8) := by decide
/-- V-DEC-1: descriptors. -/
theorem test_descriptors :
    (Instr.xorA.descriptor.tag, Instr.xorA.length) = (.xorR .a, 1) ∧
    ((Instr.jpNn 0#16).descriptor.tag, (Instr.jpNn 0#16).length) = (.jpNn, 3) ∧
    ((Instr.jrNz 0#8).descriptor.tag, (Instr.jrNz 0#8).length) = (.jrCc .nz, 2) ∧
    Instr.rst28.descriptor.tag = .rst 0x0028#16 ∧ Instr.ldHAtHl.descriptor.tag = .ldRRr .h .hl := by decide

/-! ### Reset, flags, pairs, PC, push (95_test_vectors.md 3.1 to 3.4, 3.17) -/

/-- V-RES-1. -/
theorem test_reset_registers :
    State.reset.pair .af = 0x0100#16 ∧ State.reset.pair .bc = 0x0013#16 ∧ State.reset.pair .de = 0x00D8#16 ∧
    State.reset.pair .hl = 0x014D#16 ∧ State.reset.pc = 0x0100#16 ∧ State.reset.sp = 0xD000#16 := by decide
/-- V-RES-2. -/
theorem test_boot_flags : (bootFlags 0x66#8).pack = 0x30#8 ∧ (bootFlags 0x00#8).pack = 0x00#8 := by decide
/-- V-FLAG-1, V-FLAG-2. -/
theorem test_flags_pack : (flagsOf true false false true).pack = 0x90#8 ∧ (flagsOf false true true false).pack = 0x60#8 ∧
    Flags.unpack 0x9A#8 = flagsOf true false false true ∧ Flags.unpack 0x0F#8 = flagsOf false false false false := by decide
/-- V-PAIR-2, V-PAIR-3. -/
theorem test_pair_writes :
    (State.reset.putPair .bc 0xBEEF#16).reg .b = 0xBE#8 ∧ (State.reset.putPair .bc 0xBEEF#16).reg .c = 0xEF#8 ∧
    (State.reset.putPair .af 0xABCD#16).pair .af = 0xABC0#16 := by decide
/-- V-PC-1, V-PC-2. -/
theorem test_pc_wraps :
    ({ State.reset with pc := 0xFFFF#16 }.pcNext.2).pc = 0x0000#16 ∧
    ({ State.reset with pc := 0x0005#16 }.pcRel 0xF0#8).pc = 0xFFF5#16 ∧
    ({ State.reset with pc := 0xFFFF#16 }.pcRel 0x7F#8).pc = 0x007E#16 := by decide
/-- V-SP-1, V-SP-3. -/
theorem test_push :
    (State.reset.push16 referenceBus 0x0103#16).toOption.bind (byteAt ·.toState 0xCFFE#16) = some 0x03#8 ∧
    (State.reset.push16 referenceBus 0x0103#16).toOption.bind (byteAt ·.toState 0xCFFF#16) = some 0x01#8 ∧
    (State.toCoreOn { State.reset with sp := 0x0001#16 }).push16 referenceBus 0xABCD#16 =
      .error (.addressing .write 0xFFFF#16) := by decide

/-! ### One step each (95_test_vectors.md 3.6 to 3.16) -/

theorem test_jp : after (code 0x0200#16 [0xC3#8, 0x34#8, 0x12#8]) (·.pc) = some 0x1234#16 := by decide
/-- The second operand byte is unwired. -/
theorem test_jp_operand_fault :
    faultOf (step (code 0xDFFE#16 [0xC3#8, 0x00#8])) = some (.addressing .read 0xE000#16) := by decide
theorem test_jr_nz : after (code 0x010E#16 [0x20#8, 0xF8#8]) (·.pc) = some 0x0108#16 := by decide
theorem test_jr_nz_not : after ((code 0x0200#16 [0x20#8, 0x05#8]).putFlags (flagsOf true false false false)) (·.pc) =
    some 0x0202#16 := by decide
theorem test_jr_z : after ((code 0x0200#16 [0x28#8, 0xFE#8]).putFlags (flagsOf true false false false)) (·.pc) =
    some 0x0200#16 := by decide
theorem test_jr_z_not : after ((code 0x0200#16 [0x28#8, 0x10#8]).putFlags (flagsOf false true true true)) (·.pc) =
    some 0x0202#16 := by decide
theorem test_jr_nc : after (code 0x0000#16 [0x30#8, 0x80#8]) (·.pc) = some 0xFF82#16 := by decide
theorem test_jr_c : after ((code 0x0200#16 [0x38#8, 0xFF#8]).putFlags (flagsOf false false false true)) (·.pc) =
    some 0x0201#16 := by decide
/-- V-RST-2. -/
theorem test_restarts :
    (restartForms.map fun f => after (code 0x0234#16 [f.1]) fun t => (t.pc, t.sp, byteAt t 0xCFFE#16, byteAt t 0xCFFF#16)) =
      [0x0000#16, 0x0008#16, 0x0010#16, 0x0018#16, 0x0020#16, 0x0028#16, 0x0030#16, 0x0038#16].map fun v =>
        some (v, 0xCFFE#16, some 0x35#8, some 0x02#8) := by decide
/-- V-RST-5. -/
theorem test_restart_fault :
    faultOf (step { code 0x0100#16 [0xFF#8] with sp := 0xFFFE#16 }) = some (.addressing .write 0xFFFC#16) := by decide
/-- V-RST-6. -/
theorem test_restart_into_rom :
    after { code 0x0100#16 [0xC7#8] with sp := 0x0002#16 } (fun t => (t.pc, t.sp, byteAt t 0x0000#16)) =
      some (0x0000#16, 0x0000#16, some 0x00#8) := by decide
theorem test_cp : ([(0x3E#8, 0x3E#8), (0x10#8, 0x20#8), (0x10#8, 0x01#8), (0x80#8, 0x7F#8), (0x0F#8, 0xF0#8)].map fun p =>
    after ((code 0x0100#16 [0xFE#8, p.2]).putReg .a p.1) fun t => (t.flags.pack, t.regs.a)) =
      [some (0xC0#8, 0x3E#8), some (0x50#8, 0x10#8), some (0x60#8, 0x10#8), some (0x60#8, 0x80#8), some (0x50#8, 0x0F#8)] := by
  decide
theorem test_xor_b : after (((code 0x002A#16 [0xA8#8]).putReg .a 0x5A#8).putReg .b 0x0F#8) (fun t => t.pair .af) =
    some 0x5500#16 := by decide
theorem test_xor_others : ([0xA9#8, 0xAA#8, 0xAB#8, 0xAC#8, 0xAD#8, 0xAF#8].map fun op =>
    after (code 0x0100#16 [op]) fun t => t.pair .af) =
      [some 0x1200#16, some 0x0100#16, some 0xD900#16, some 0x0080#16, some 0x4C00#16, some 0x0080#16] := by decide
theorem test_inc_bc : after ((code 0x0100#16 [0x03#8]).putPair .bc 0x00FF#16) (fun t => t.pair .bc) = some 0x0100#16 := by decide
theorem test_inc_de : after ((code 0x0100#16 [0x13#8]).putPair .de 0xFFFF#16) (fun t => (t.pair .de, t.flags.z)) =
    some (0x0000#16, false) := by decide
theorem test_inc_hl : after (((code 0x0100#16 [0x23#8]).putPair .hl 0xFFFF#16).putFlags (flagsOf true true true true))
    (fun t => (t.pair .hl, t.flags.pack)) = some (0x0000#16, 0xF0#8) := by decide
theorem test_load_immediates : (immediateForms.map fun f => after (code 0x0100#16 [f.1, 0x5C#8]) fun t => (t.reg f.2.2, t.pc)) =
    List.replicate 7 (some (0x5C#8, 0x0102#16)) := by decide
theorem test_store_bc : after (((code 0x0100#16 [0x02#8]).putReg .a 0x42#8).putPair .bc 0xC100#16) (byteAt · 0xC100#16) =
    some (some 0x42#8) := by decide
theorem test_store_de : after (((code 0x0100#16 [0x12#8]).putReg .a 0x42#8).putPair .de 0xDFFF#16) (byteAt · 0xDFFF#16) =
    some (some 0x42#8) := by decide
/-- The rows of 3.13 with HL = 0xC123: the registers hold A = 0x01, B = 0x00, C = 0x13, D = 0x00, E = 0xD8. -/
theorem test_store_hl : ([0x70#8, 0x71#8, 0x72#8, 0x73#8, 0x74#8, 0x75#8, 0x77#8].map fun op =>
    after ((code 0x0100#16 [op]).putPair .hl 0xC123#16) (byteAt · 0xC123#16)) =
      [some (some 0x00#8), some (some 0x13#8), some (some 0x00#8), some (some 0xD8#8), some (some 0xC1#8), some (some 0x23#8),
       some (some 0x01#8)] := by decide
theorem test_store_unwired : faultOf (step ((code 0x0100#16 [0x77#8]).putPair .hl 0xE000#16)) =
    some (.addressing .write 0xE000#16) := by decide
/-- A store to ROM and to disabled cartridge RAM is dropped. -/
theorem test_store_dropped :
    after ((code 0x0100#16 [0x77#8]).putPair .hl 0x0150#16) (byteAt · 0x0150#16) = some (some 0x00#8) ∧
    after ((code 0x0100#16 [0x77#8]).putPair .hl 0xA000#16) (byteAt · 0xA000#16) = some (some 0xFF#8) := by decide
theorem test_load_bc : after (poke (code 0x0100#16 [0x0A#8]) 0x0013#16 0x77#8) (·.reg .a) = some 0x77#8 := by decide
theorem test_load_de : after (poke ((code 0x0108#16 [0x1A#8]).putPair .de 0x0150#16) 0x0150#16 0x48#8) (·.reg .a) =
    some 0x48#8 := by decide
theorem test_load_hl : ([(0x46#8, RegSel.b), (0x4E#8, .c), (0x56#8, .d), (0x5E#8, .e), (0x66#8, .h), (0x6E#8, .l),
    (0x7E#8, .a)].map fun p => after (poke ((code 0x0100#16 [p.1]).putPair .hl 0xC010#16) 0xC010#16 0x7F#8) (·.reg p.2)) =
      List.replicate 7 (some 0x7F#8) := by decide
theorem test_load_h_changes_hl : after (poke ((code 0x0100#16 [0x66#8]).putPair .hl 0xC010#16) 0xC010#16 0xD0#8)
    (fun t => t.pair .hl) = some 0xD010#16 := by decide
theorem test_load_edges :
    after ((code 0x0100#16 [0x5E#8]).putPair .hl 0xA000#16) (·.reg .e) = some 0xFF#8 ∧
    faultOf (step ((code 0x0100#16 [0x7E#8]).putPair .hl 0xFFFF#16)) = some (.addressing .read 0xFFFF#16) := by decide
/-- V-NOP-1. -/
theorem test_nop : after (code 0xDFFF#16 [0x00#8]) (·.pc) = some 0xE000#16 := by decide
/-- V-PFX-1, V-PFX-2. -/
theorem test_escape :
    faultOf (step (code 0x0100#16 [0xCB#8, 0x37#8])) = some (.decodeExtended 0x37#8 0x0100#16) ∧
    faultOf (step (code 0xDFFF#16 [0xCB#8])) = some (.addressing .read 0xE000#16) := by decide
/-- V-FLT-1, V-FLT-3, V-FLT-4. -/
theorem test_fault_order :
    faultOf (step (code 0x0100#16 [0xD3#8])) = some (.decodePrimary 0xD3#8 0x0100#16) ∧
    faultOf (step (code 0xDFFF#16 [0x01#8])) = some (.decodePrimary 0x01#8 0xDFFF#16) ∧
    faultOf (step (code 0xDFFF#16 [0x3E#8])) = some (.addressing .read 0xE000#16) := by decide

/-! ### The cartridge (S8) and the placing of an instruction -/

/-- A controller with three windows, a 5-bit bank index and 32 KB of RAM in four banks. -/
def banked (coerceFirst : Bool) : CartConfig :=
  { windows := [⟨0x0000, 0x1FFF, .ramEnable⟩, ⟨0x2000, 0x3FFF, .romBank⟩, ⟨0x4000, 0x5FFF, .ramBank⟩],
    romBankBits := 5, coerceBeforeMask := coerceFirst, zeroReadsBankOne := false, ramStride := 0x2000, ramSize := 0x8000 }

/-- A 128 KB image under that controller, with one byte in bank 2. -/
def bankedState (coerceFirst : Bool) : State :=
  { State.reset with bus := { State.reset.bus with cart := { Cartridge.reset with
      config := banked coerceFirst, rom := [⟨0x8123, 0x99#8⟩], romSize := 0x20000 } } }

/-- Writing 2 to ROM-bank-select shows bank 2; 0 acts as 1. -/
theorem test_rom_bank_select :
    ((bankedState false).busWrite 0x2000#16 0x02#8).toOption.bind (byteAt · 0x4123#16) = some 0x99#8 ∧
    ((bankedState false).busWrite 0x3FFF#16 0x00#8).toOption.map (·.bus.cart.romBank) = some 1 := by decide
/-- 0x20 masks to 0 in 5 bits: coerced after the mask it selects bank 1, coerced before it bank 0. -/
theorem test_rom_bank_order :
    ((bankedState false).busWrite 0x2000#16 0x20#8).toOption.map (·.bus.cart.romBank) = some 1 ∧
    ((bankedState true).busWrite 0x2000#16 0x20#8).toOption.map (·.bus.cart.romBank) = some 0 := by decide
/-- RAM-enable looks at the low nibble; RAM-bank-select keeps two bits. -/
theorem test_ram_controls :
    ((bankedState false).busWrite 0x0000#16 0x3A#8).toOption.map (·.bus.cart.ramEnabled) = some true ∧
    ((bankedState false).busWrite 0x1FFF#16 0xA0#8).toOption.map (·.bus.cart.ramEnabled) = some false ∧
    ((bankedState false).busWrite 0x5FFF#16 0x07#8).toOption.map (·.bus.cart.ramBank) = some 3 := by decide

/-- The first step after reset runs the placed instruction. -/
theorem test_withFetchWord :
    after (State.reset.withFetchWord 24 0x0150C3) (·.pc) = some 0x0150#16 ∧
    after (State.reset.withFetchWord 16 0x5A3E) (·.reg .a) = some 0x5A#8 ∧
    faultOf (step (State.reset.withFetchWord 8 0xD3)) = some (.decodePrimary 0xD3#8 0x0100#16) := by decide

/-! ### Witnesses: concrete states and operands that meet the hypotheses of each statement together -/

/-- The invariant, checked field by field. -/
def invHolds (s : State) : Bool :=
  Memory.wf s.bus.vram && Memory.wf s.bus.wram && Memory.wf s.bus.cart.rom && Memory.wf s.bus.cart.ram &&
  Memory.within 0x8000 0xA000 s.bus.vram && Memory.within 0xC000 0xE000 s.bus.wram && Memory.within 0 s.bus.cart.romSize s.bus.cart.rom &&
  Memory.within 0 s.bus.cart.config.ramSize s.bus.cart.ram && decide (minImageLength ≤ s.bus.cart.romSize) &&
  (decide (s.bus.cart.romBank = 1) || decide (s.bus.cart.romBank < 2 ^ s.bus.cart.config.romBankBits)) &&
  (s.bus.cart.config.coerceBeforeMask || decide (1 ≤ s.bus.cart.romBank))

theorem inv_of_invHolds (s : State) (h : invHolds s = true) : s.Inv := by
  simp only [invHolds, Bool.and_eq_true, Bool.or_eq_true, decide_eq_true_eq] at h
  obtain ⟨⟨⟨⟨⟨⟨⟨⟨⟨⟨h1, h2⟩, h3⟩, h4⟩, h5⟩, h6⟩, h7⟩, h8⟩, h9⟩, h10⟩, h11⟩ := h
  exact ⟨h1, h2, h3, h4, h5, h6, h7, h8, h9, h10, fun hc => h11.resolve_left (by simp [hc])⟩

/-- An outcome that projects to a next state is that next state. -/
theorem eq_next_of_nextOf (o : Host.Outcome State Fault Refusal) (h : (nextOf o).isSome = true) : ∃ t, o = .next t := by
  cases o with
  | next t => exact ⟨t, rfl⟩
  | fault f => cases h
  | refused r => cases h

theorem eq_fault_of_faultOf (o : Host.Outcome State Fault Refusal) (f : Fault) (h : faultOf o = some f) : o = .fault f := by
  cases o with
  | fault g => exact congrArg _ (Option.some.inj h)
  | next t => cases h
  | refused r => cases h

/-- A step or a meaning that goes on. -/
def goesOn (o : Host.Outcome State Fault Refusal) : Bool := (nextOf o).isSome

/-- StepRunsTheDecodedInstruction, PcAfterAStepFollowsTheTable: lengths 1, 2 and 3, the last across 0x7FFF and 0x8000. -/
theorem witness_step_of_bytes :
    (decode [0x00#8] = .ok (.nop, []) ∧ (code 0x0000#16 [0x00#8]).bytesAt 0x0000#16 [0x00#8] ∧
      goesOn (step (code 0x0000#16 [0x00#8])) = true) ∧
    (decode [0x3E#8, 0x5A#8] = .ok (.ldAN 0x5A#8, []) ∧
      (code 0xDFFE#16 [0x3E#8, 0x5A#8]).bytesAt 0xDFFE#16 [0x3E#8, 0x5A#8] ∧
      goesOn (step (code 0xDFFE#16 [0x3E#8, 0x5A#8])) = true) ∧
    (decode [0xC3#8, 0x34#8, 0x12#8] = .ok (.jpNn 0x1234#16, []) ∧
      (code 0x7FFE#16 [0xC3#8, 0x34#8, 0x12#8]).bytesAt 0x7FFE#16 [0xC3#8, 0x34#8, 0x12#8] ∧
      goesOn (step (code 0x7FFE#16 [0xC3#8, 0x34#8, 0x12#8])) = true) := by
  refine ⟨⟨by decide, ⟨by decide, trivial⟩, by decide⟩, ⟨by decide, ⟨by decide, by decide, trivial⟩, by decide⟩,
    ⟨by decide, ⟨by decide, by decide, by decide, trivial⟩, by decide⟩⟩

/-- UncoveredOpcodeRaisesDecodeFault. -/
theorem witness_uncovered : ∀ op ∈ [0x01#8, 0x41#8, 0xFD#8], (code 0x0100#16 [op]).busRead 0x0100#16 = .ok op ∧
    op.toNat ∈ uncoveredOpcodes := by decide

/-- UnwiredOpcodeFetchFaultsFirst, AccessesFaultExactlyWhenUnwired. -/
theorem witness_unwired : 0xE000 ≤ (code 0xE000#16 []).pc.toNat ∧ 0xE000 ≤ (code 0xFFFF#16 []).pc.toNat ∧
    (0x0000#16).toNat < 0xE000 ∧ (0xDFFF#16).toNat < 0xE000 := by decide

/-- StepFaultsOnlyForTheListedCauses: a step that faults, for each cause. -/
theorem witness_faults :
    step (code 0x0100#16 [0xFD#8]) = .fault (.decodePrimary 0xFD#8 0x0100#16) ∧
    step (code 0x0100#16 [0xCB#8, 0xFF#8]) = .fault (.decodeExtended 0xFF#8 0x0100#16) ∧
    step (code 0xFFFF#16 []) = .fault (.addressing .read 0xFFFF#16) ∧
    step { code 0x0100#16 [0xFF#8] with sp := 0xFFFE#16 } = .fault (.addressing .write 0xFFFC#16) := by
  refine ⟨?_, ?_, ?_, ?_⟩ <;> exact eq_fault_of_faultOf _ _ (by decide)

/-- EncodeInvertsDecode. -/
theorem witness_encode : decode [0xC3#8, 0xFF#8, 0xFF#8, 0x00#8] = .ok (.jpNn 0xFFFF#16, [0x00#8]) := by decide

/-- The operand-fetch clauses of the escape, JP, JR, CP and LD r,n. -/
theorem witness_operand_fetch :
    ∀ op ∈ [0xCB#8, 0xC3#8, 0xFE#8] ++ jumpForms.map (·.1) ++ immediateForms.map (·.1),
      (code 0xDFFF#16 [op]).busRead (code 0xDFFF#16 [op]).pc = .ok op ∧
      0xE000 ≤ ((code 0xDFFF#16 [op]).pc + 1#16).toNat := by decide

/-- AbsoluteJumpSetsThePc, last clause; EscapeFaultsForEveryExtensionByte, third clause. -/
theorem witness_second_operand :
    (code 0xDFFE#16 [0xC3#8]).busRead 0xDFFE#16 = .ok 0xC3#8 ∧ (0xDFFE#16 + 1#16).toNat < 0xE000 ∧
    0xE000 ≤ (0xDFFE#16 + 2#16).toNat ∧ (code 0xDFFE#16 [0xCB#8, 0x7C#8]).bytesAt 0xDFFE#16 [0xCB#8, 0x7C#8] :=
  ⟨by decide, by decide, by decide, ⟨by decide, by decide, trivial⟩⟩

/-- ConditionalJumpAddsTheSignedDisplacement: each condition both holds and fails. -/
theorem witness_conditions : ∀ f ∈ jumpForms, ∃ g ∈ [flagsOf true true true true, flagsOf false false false false],
    ∃ k ∈ [flagsOf true true true true, flagsOf false false false false], f.2.2 g = true ∧ f.2.2 k = false := by decide

/-- RestartPushesAndGoesToItsVector: the three stack clauses, at the edge of Work RAM, and a place that is neither. -/
theorem witness_restart_stack :
    ((0xE000#16 - 2#16).toNat < 0xE000 ∧ (0xE000#16 - 1#16).toNat < 0xE000) ∧
    0xE000 ≤ (0xE002#16 - 2#16).toNat ∧ ((0xE001#16 - 2#16).toNat < 0xE000 ∧ 0xE000 ≤ (0xE001#16 - 1#16).toNat) ∧
    (0xE000 ≤ (0x0001#16 - 2#16).toNat ∧ (0x0002#16 - 2#16).toNat < 0xE000) ∧
    Route.vram 0x8000 ≠ { State.reset with sp := 0xE000#16 }.bus.route 0xDFFE#16 ∧
    Route.vram 0x8000 ≠ { State.reset with sp := 0xE000#16 }.bus.route 0xDFFF#16 := by decide

theorem plainRam_edges : ∀ a ∈ [0x8000#16, 0x8001#16, 0x9FFE#16, 0x9FFF#16, 0xC000#16, 0xC001#16, 0xDFFE#16, 0xDFFF#16],
    PlainRam a := by
  intro a h
  simp only [List.mem_cons, List.not_mem_nil, or_false] at h
  rcases h with rfl | rfl | rfl | rfl | rfl | rfl | rfl | rfl <;> simp [PlainRam]

/-- A pair holding an address. -/
def pointing (p : PairSel) (a : Word) : State := (code 0x0100#16 [0x00#8]).putPair p a

theorem pointing_inv (p : PairSel) (a : Word) : (pointing p a).Inv := by
  have h : invHolds (pointing p a) = invHolds (code 0x0100#16 [0x00#8]) := by cases p <;> rfl
  exact inv_of_invHolds _ (h.trans (by decide))

/-- RestartStackReadsBack: the stack at both edges of plain memory. -/
theorem witness_restart_ram : ∀ sp ∈ [0x8002#16, 0xA000#16, 0xC002#16, 0xE000#16],
    State.Inv { pointing .hl 0x0000#16 with sp := sp } ∧ PlainRam (sp - 2#16) ∧ PlainRam (sp - 1#16) := by
  intro sp h
  have hi := pointing_inv .hl 0x0000#16
  refine ⟨⟨hi.1, hi.2, hi.3, hi.4, hi.5, hi.6, hi.7, hi.8, hi.9, hi.10, hi.11⟩, plainRam_edges _ ?_, plainRam_edges _ ?_⟩ <;>
    (simp only [List.mem_cons, List.not_mem_nil, or_false] at h; rcases h with rfl | rfl | rfl | rfl <;> decide)

/-- XorWritesAAndAllFourFlags, PairIncrementWrapsAndTouchesNoFlag, LoadImmediateWritesOneRegister: every form is in its list,
and a register that is not the destination. -/
theorem witness_register_forms :
    xorForms.length = 7 ∧ immediateForms.length = 7 ∧ incForms.length = 3 ∧
    (∀ f ∈ incForms, RegSel.a ≠ f.2.2.1 ∧ RegSel.a ≠ f.2.2.2) ∧
    ∀ f ∈ immediateForms, ∃ r ∈ [RegSel.a, RegSel.b], r ≠ f.2.2 := by decide

/-- StoreHandsTheRegisterToTheBus, LoadTakesTheByteFromTheBus: both clauses of every form, where they meet, and a place that
is not the one addressed. -/
theorem witness_addressed_forms :
    (∀ p ∈ [PairSel.bc, PairSel.de, PairSel.hl], ((pointing p 0xDFFF#16).pair p).toNat < 0xE000 ∧
      ((pointing p 0x0000#16).pair p).toNat < 0xE000 ∧ 0xE000 ≤ ((pointing p 0xE000#16).pair p).toNat ∧
      Route.wram 0xC000 ≠ (pointing p 0xDFFF#16).bus.route ((pointing p 0xDFFF#16).pair p)) ∧
    (∀ f ∈ storeForms, f.2.2.1 ∈ [PairSel.bc, PairSel.de, PairSel.hl]) ∧
    ∀ f ∈ loadForms, f.2.2.1 ∈ [PairSel.bc, PairSel.de, PairSel.hl] ∧ ∃ r ∈ [RegSel.a, RegSel.b], r ≠ f.2.2.2 := by decide

/-- StoreToPlainRamReadsBack, PlainRamHoldsTheLastByteWritten. -/
theorem witness_plain_ram : ∀ p ∈ [PairSel.bc, PairSel.de, PairSel.hl], ∀ a ∈ [0x8000#16, 0x9FFF#16, 0xC000#16, 0xDFFF#16],
    (pointing p a).Inv ∧ (pointing p a).pair p = a ∧ PlainRam a := by
  intro p hp a ha
  refine ⟨pointing_inv p a, ?_, plainRam_edges a ?_⟩ <;> simp only [List.mem_cons, List.not_mem_nil, or_false] at hp ha
  rotate_left
  · rcases ha with rfl | rfl | rfl | rfl <;> decide
  rcases hp with rfl | rfl | rfl <;> exact cat_hi8_lo8 a

/-- OnlyCompareAndXorChangeFlags, RegistersChangeOnlyAsTheTableLists, OnlyStoresAndRestartsReachMemory,
StackPointerCountsRestarts (first clause): meanings that go on. -/
theorem witness_frames :
    goesOn (exec .incHl State.reset) = true ∧ writesFlags .incHl = false ∧ RegSel.a ∉ writtenRegs .incHl ∧
    isStore .incHl = false ∧ isRestart .incHl = false ∧ goesOn (exec .rst38 State.reset) = true ∧
    isRestart .rst38 = true ∧ goesOn (exec .ldAtHlA (pointing .hl 0xC000#16)) = true ∧ isStore .ldAtHlA = true ∧
    writesFlags (.cpN 0x00#8) = true ∧ writesFlags .xorA = true := by decide

/-- Construction inputs: the shortest image, with a given header checksum, and bytes in each memory. -/
def inputs (checksum : Byte) : BootInputs :=
  { image := List.replicate 0x014D 0x00#8 ++ [checksum], spReset := 0xFFFE#16, config := banked false,
    initVram := [0x11#8], initWram := [0x22#8], initCartRam := [0x33#8] }

theorem length_zeros_and (n : Nat) (c : Byte) : (List.replicate n 0x00#8 ++ [c]).length = n + 1 := by simp

theorem last_of_zeros_and (n : Nat) (c : Byte) : (List.replicate n 0x00#8 ++ [c])[n]? = some c := by simp

theorem inputs_length (c : Byte) : (inputs c).image.length = 0x014E := length_zeros_and 0x014D c

theorem inputs_checksum (c : Byte) : (inputs c).image[0x014D]? = some c := last_of_zeros_and 0x014D c

theorem construct_inputs (c : Byte) : ∃ s, construct (inputs c) = .ok s := by
  unfold construct constructOn
  rw [if_neg (by rw [inputs_length]; decide)]
  exact ⟨_, rfl⟩

/-- StackPointerCountsRestarts (second clause), RunsNeverChangeTheRomImage, ConstructionMeetsTheInvariant,
ConstructionLoadsTheMemories: a construction and a run of it. -/
theorem witness_construction :
    (∃ s t, construct (inputs 0x66#8) = .ok s ∧ Sys2Proof.core.run 0 s = .next t) ∧
    (inputs 0x66#8).image[0x014D]? = some 0x66#8 ∧ (inputs 0x66#8).initVram[0]? = some 0x11#8 ∧
    (inputs 0x66#8).initWram[0]? = some 0x22#8 ∧ (inputs 0x66#8).initCartRam[0]? = some 0x33#8 ∧
    0 < (inputs 0x66#8).config.ramSize := by
  obtain ⟨s, h⟩ := construct_inputs 0x66#8
  exact ⟨⟨s, s, h, rfl⟩, inputs_checksum _, rfl, rfl, rfl, by decide⟩

/-- RunsNeverChangeTheRomImage, StackPointerCountsRestarts: a run of one restart. -/
theorem witness_run : ∃ t, Sys2Proof.core.run 1 (code 0x0100#16 [0xFF#8]) = .next t ∧
    restartsIn 1 (code 0x0100#16 [0xFF#8]) = 1 := by
  obtain ⟨t, h⟩ := eq_next_of_nextOf (step (code 0x0100#16 [0xFF#8])) (by decide)
  refine ⟨t, ?_, by decide⟩
  have h' : Sys2Proof.core.step (code 0x0100#16 [0xFF#8]) = .next t := h
  simp only [Host.Core.run, h']

/-- ConstructionSetsThePostBootValues, ConstructionSetsTheCoreOnEveryBus: both presets; ShortImagesAreRefused: one byte too few. -/
theorem witness_images :
    0x014E ≤ (inputs 0x01#8).image.length ∧ (inputs 0x01#8).image[0x014D]? ≠ some 0x00#8 ∧
    0x014E ≤ (inputs 0x00#8).image.length ∧ (inputs 0x00#8).image[0x014D]? = some 0x00#8 ∧
    (List.replicate 0x014D 0x00#8).length < 0x014E := by
  refine ⟨by rw [inputs_length], by rw [inputs_checksum]; decide, by rw [inputs_length], inputs_checksum _, ?_⟩
  rw [List.length_replicate]
  decide

/-- StepKeepsTheInvariant. -/
theorem witness_inv_step : (pointing .hl 0xDFFF#16).Inv ∧ goesOn (step (pointing .hl 0xDFFF#16)) = true ∧
    (bankedState true).Inv ∧ goesOn (step (bankedState true)) = true :=
  ⟨inv_of_invHolds _ (by decide), by decide, inv_of_invHolds _ (by decide), by decide⟩

/-- SubtractAndHalfCarryInfluenceNothing: two different states. -/
theorem witness_same_but_nh : SameButNH State.reset (State.reset.putFlags (flagsOf false true true false)) ∧
    State.reset ≠ State.reset.putFlags (flagsOf false true true false) := ⟨rfl, by decide⟩

/-- V-ST-SMC: LD (HL),A at 0xC000 stores 0xAF over the NOP after it. -/
def selfModifying : State := ((code 0xC000#16 [0x77#8, 0x00#8]).putReg .a 0xAF#8).putPair .hl 0xC001#16

/-- StoredByteIsTheNextInstruction. -/
theorem witness_self_modifying : selfModifying.Inv ∧ selfModifying.busRead selfModifying.pc = .ok 0x77#8 ∧
    selfModifying.pair .hl = selfModifying.pc + 1#16 ∧ PlainRam (selfModifying.pc + 1#16) ∧
    decode [selfModifying.regs.a] = .ok (.xorA, []) := by
  refine ⟨inv_of_invHolds _ (by decide), by decide, by decide, ?_, by decide⟩
  unfold PlainRam
  decide

/-- PairViewsRoundTrip: a register outside each pair. -/
theorem witness_outside_pair : ∀ q ∈ [(RegSel.b, RegSel.c), (.d, .e), (.h, .l)], RegSel.a ≠ q.1 ∧ RegSel.a ≠ q.2 := by decide

/-- RomReadsTheSelectedBank: both ends of both halves; a stored index 0. -/
theorem witness_rom_bank : (∀ a ∈ [0x0000, 0x3FFF], a < 0x4000 ∧ a < State.reset.bus.cart.romSize) ∧
    (∀ a ∈ [0x4000, 0x7FFF], 0x4000 ≤ a ∧ a < 0x8000 ∧
      1 ≤ State.reset.bus.cart.romBank ∧ State.reset.bus.cart.romBank * 0x4000 + (a - 0x4000) < State.reset.bus.cart.romSize) ∧
    { (bankedState true).bus.cart with romBank := 0 }.romBank = 0 := by decide

/-- RomRangeWritesAreControlWrites, RomBankZeroActsAsOne: each control, a byte that disables, an address of cartridge RAM. -/
theorem witness_controls : (bankedState false).bus.cart.controlAt 0x1FFF#16 = some .ramEnable ∧ (0xAF#8).toNat % 16 ≠ 0xA ∧
    (∀ c ∈ [false, true], (bankedState c).bus.cart.controlAt 0x2000#16 = some .romBank ∧
      (bankedState c).bus.cart.config.coerceBeforeMask = c) ∧
    (bankedState false).bus.cart.controlAt 0x5FFF#16 = some .ramBank ∧ 0xA000 ≤ (0xBFFF#16).toNat ∧ (0xBFFF#16).toNat < 0xC000 := by
  decide

/-- UnclaimedRomWritesChangeNothing: the address after the last window. -/
theorem witness_unclaimed : ∀ w ∈ (bankedState false).bus.cart.config.windows,
    ¬(w.lo ≤ (0x6000#16).toNat ∧ (0x6000#16).toNat ≤ w.hi) := by decide

/-- CartridgeRamFollowsItsEnable: disabled, absent, and enabled at the last byte of the last bank. -/
theorem witness_cartridge_ram :
    (bankedState false).bus.cart.ramEnabled = false ∧ State.reset.bus.cart.config.ramSize = 0 ∧
    (3 : Fin 4).val * (banked false).ramStride + ((0xBFFF#16).toNat - 0xA000) < (banked false).ramSize ∧
    State.Inv { bankedState false with bus := { (bankedState false).bus with
      cart := { (bankedState false).bus.cart with ramEnabled := true, ramBank := 3 } } } ∧
    Route.cartRam 0 ≠ .cartRam 0x7FFF :=
  ⟨by decide, by decide, by decide, inv_of_invHolds _ (by decide), by decide⟩

/-! ### The core on another bus -/

/-- A bus with one byte of its own, which every address but 0xFFFF reads and writes. -/
def oneByteBus : Bus Byte :=
  { read := fun q a => if a = 0xFFFF#16 then none else some (q, q),
    write := fun _ a v => if a = 0xFFFF#16 then none else some v }

/-- The core after construction on that bus, with PC, SP and the byte the bus holds. -/
def onOneByte (pc sp : Word) (b : Byte) : CoreOn Byte :=
  { regs := State.reset.regs, flags := State.reset.flags, pc := pc, sp := sp, bus := b }

/-- The core's state an outcome goes on with. -/
def coreNextOf {σ : Type} : OutcomeOn σ → Option (CoreOn σ)
  | .next t => some t
  | _ => none

/-- The fault an outcome of the core ends in. -/
def coreFaultOf {σ : Type} : OutcomeOn σ → Option Fault
  | .fault f => some f
  | _ => none

theorem eq_coreNext {σ : Type} (o : OutcomeOn σ) (h : (coreNextOf o).isSome = true) : ∃ t, o = .next t := by
  cases o with
  | next t => exact ⟨t, rfl⟩
  | fault f => cases h
  | refused r => cases h

theorem eq_coreFault {σ : Type} (o : OutcomeOn σ) (f : Fault) (h : coreFaultOf o = some f) : o = .fault f := by
  cases o with
  | fault g => exact congrArg _ (Option.some.inj h)
  | next t => cases h
  | refused r => cases h

/-- An address the reference platform leaves unwired runs on a bus that wires it; a restart leaves the high byte there. -/
theorem test_other_bus :
    (coreNextOf (stepOn oneByteBus (onOneByte 0xE000#16 0x0000#16 0xAF#8))).map (fun t => (t.pc, t.regs.a, t.bus)) =
      some (0xE001#16, 0x00#8, 0xAF#8) ∧
    (coreNextOf (stepOn oneByteBus (onOneByte 0xE000#16 0xF002#16 0xFF#8))).map (fun t => (t.pc, t.sp, t.bus)) =
      some (0x0038#16, 0xF000#16, 0xE0#8) ∧
    (coreFaultOf (stepOn oneByteBus (onOneByte 0xFFFF#16 0x0000#16 0xAF#8))) = some (.addressing .read 0xFFFF#16) := by decide

/-- RegisterInstructionsIgnoreTheBus, first three and last hypothesis: a register instruction and a jump that go on. -/
theorem witness_register_instruction : ∀ i ∈ [Instr.xorB, .jrNz 0x80#8, .incHl],
    isLoad i = false ∧ isStore i = false ∧ isRestart i = false ∧
    (coreNextOf (execOn oneByteBus i (onOneByte 0x0000#16 0x0000#16 0x00#8))).isSome = true := by decide

/-- MemoryInstructionsDoWhatTheBusDoes: each clause, the refused address being 0xFFFF. -/
theorem witness_bus_accesses :
    (∀ f ∈ storeForms, (oneByteBus.write 0x00#8 ((onOneByte 0#16 0#16 0#8).pair f.2.2.1) 0x5A#8).isSome = true) ∧
    (∀ f ∈ storeForms, oneByteBus.write 0x00#8 (((onOneByte 0#16 0#16 0#8).setPair f.2.2.1 0xFFFF#16).pair f.2.2.1) 0x5A#8 = none) ∧
    (∀ f ∈ loadForms, (oneByteBus.read 0x00#8 ((onOneByte 0#16 0#16 0#8).pair f.2.2.1)).isSome = true) ∧
    (∀ f ∈ loadForms, oneByteBus.read 0x00#8 (((onOneByte 0#16 0#16 0#8).setPair f.2.2.1 0xFFFF#16).pair f.2.2.1) = none) ∧
    (oneByteBus.write 0x00#8 (0xFFFF#16 - 2#16) 0x34#8 = some 0x34#8 ∧
      oneByteBus.write 0x34#8 (0xFFFF#16 - 1#16) 0x12#8 = some 0x12#8) ∧
    oneByteBus.write 0x00#8 (0x0001#16 - 2#16) 0x34#8 = none ∧
    (oneByteBus.write 0x00#8 (0x0000#16 - 2#16) 0x34#8 = some 0x34#8 ∧
      oneByteBus.write 0x34#8 (0x0000#16 - 1#16) 0x12#8 = none) := by decide

/-- FramesHoldOnEveryBus, AccessesFollowTheTableOnEveryBus: a fetch and a step that go on, with no access, a read, a write
and a push beyond the fetch. -/
theorem witness_step_on_bus :
    ∀ p ∈ [(0xAF#8, Instr.xorA), (0x7E#8, .ldAAtHl), (0x77#8, .ldAtHlA), (0xFF#8, .rst38)],
      (∃ m', (onOneByte 0xE000#16 0xF002#16 p.1).fetchInstr oneByteBus = .ok (p.2, m')) ∧
      ∃ t, stepOn oneByteBus (onOneByte 0xE000#16 0xF002#16 p.1) = .next t := by
  intro p hp
  simp only [List.mem_cons, List.not_mem_nil, or_false] at hp
  rcases hp with rfl | rfl | rfl | rfl <;> exact ⟨⟨_, rfl⟩, eq_coreNext _ (by decide)⟩

/-- FaultsHaveTheListedCausesOnEveryBus: a step that faults, for each cause. -/
theorem witness_faults_on_bus :
    stepOn oneByteBus (onOneByte 0xE000#16 0x0000#16 0xD3#8) = .fault (.decodePrimary 0xD3#8 0xE000#16) ∧
    stepOn oneByteBus (onOneByte 0xE000#16 0x0000#16 0xCB#8) = .fault (.decodeExtended 0xCB#8 0xE000#16) ∧
    stepOn oneByteBus (onOneByte 0xFFFE#16 0x0000#16 0x3E#8) = .fault (.addressing .read 0xFFFF#16) ∧
    stepOn oneByteBus (onOneByte 0xE000#16 0x0000#16 0xFF#8) = .fault (.addressing .write 0xFFFF#16) := by
  refine ⟨?_, ?_, ?_, ?_⟩ <;> exact eq_coreFault _ _ (by decide)

/-- ConstructionSetsTheCoreOnEveryBus: the images of `witness_images` meet its hypotheses. -/
theorem witness_construct_on_bus : ∃ m : CoreOn Byte, constructOn (inputs 0x01#8).image 0xFFFE#16 0xAF#8 = .ok m := by
  unfold constructOn
  rw [if_neg (by rw [inputs_length]; decide)]
  exact ⟨_, rfl⟩

end Sys2Proof.Tests
end

section
/-! PROOFS. The state of the core (10_state.md): the flags as a byte, the pair views, the values construction gives. -/

namespace Sys2Proof.Machine

variable {σ : Type}

/-! ### The flags as a byte -/

/-- Only bits 7 to 4 of the packed byte carry a flag (10_state.md R14). -/
theorem Flags.pack_and_0x0F (f : Flags) : f.pack &&& 0x0F#8 = 0x00#8 := by
  obtain ⟨z, n, h, c⟩ := f
  cases z <;> cases n <;> cases h <;> cases c <;> rfl

theorem Flags.toNat_pack_mod_16 (f : Flags) : f.pack.toNat % 16 = 0 := by
  have h := congrArg BitVec.toNat f.pack_and_0x0F
  rwa [BitVec.toNat_and, show (0x0F#8).toNat = 2 ^ 4 - 1 from rfl, Nat.and_two_pow_sub_one_eq_mod] at h

theorem Flags.getLsbD_pack_of_lt (f : Flags) {i : Nat} (hi : i < 4) : f.pack.getLsbD i = false := by
  have h := congrArg (BitVec.getLsbD · i) f.pack_and_0x0F
  interval_cases i <;> simpa using h

/-- Packing what a byte unpacks to: bits 7 to 4 are the flags, which unpack to the same again, and the low nibble is
zero (10_state.md R20). -/
theorem Flags.pack_unpack (b : Byte) : (Flags.unpack b).pack = b &&& 0xF0#8 := by
  obtain ⟨hz, hn, hh, hc⟩ := Flags.mk.inj (Flags.unpack_pack (Flags.unpack b))
  apply BitVec.eq_of_getLsbD_eq
  intro i hi
  rw [BitVec.getLsbD_and]
  by_cases hlow : i < 4
  · rw [Flags.getLsbD_pack_of_lt _ hlow]
    interval_cases i <;> exact (Bool.and_false _).symm
  · interval_cases i
    · exact hc.trans (Bool.and_true _).symm
    · exact hh.trans (Bool.and_true _).symm
    · exact hn.trans (Bool.and_true _).symm
    · exact hz.trans (Bool.and_true _).symm

/-! ### Pairs of two byte registers -/

theorem pairHalves_ne {p : PairSel} {hi lo : RegSel} (h : pairHalves p = some (hi, lo)) : hi ≠ lo := by
  rintro rfl
  cases p <;> cases h

theorem CoreOn.toNat_pair (m : CoreOn σ) {p : PairSel} {hi lo : RegSel} (h : pairHalves p = some (hi, lo)) :
    (m.pair p).toNat = (m.reg hi).toNat * 256 + (m.reg lo).toNat := by
  rw [(m.pair_of_halves p hi lo h).1, toNat_cat]

/-- What every byte register holds after a pair write (10_state.md R19). -/
theorem CoreOn.reg_setPair (m : CoreOn σ) {p : PairSel} {hi lo : RegSel} (h : pairHalves p = some (hi, lo)) (w : Word)
    (r : RegSel) :
    (m.setPair p w).reg r = if r = lo then lo8 w else if r = hi then hi8 w else m.reg r := by
  rw [(m.pair_of_halves p hi lo h).2, reg_setReg, reg_setReg]

theorem CoreOn.setPair_eq (m : CoreOn σ) {p : PairSel} (h : p ≠ .af) (w : Word) :
    m.setPair p w = { m with regs := (m.setPair p w).regs } := by
  cases p with
  | af => exact absurd rfl h
  | bc | de | hl => rfl

/-! ### AF -/

theorem CoreOn.toNat_pair_af (m : CoreOn σ) : (m.pair .af).toNat = m.regs.a.toNat * 256 + m.flags.pack.toNat :=
  toNat_cat _ _

theorem CoreOn.toNat_pair_af_mod_16 (m : CoreOn σ) : (m.pair .af).toNat % 16 = 0 := by
  have h := m.flags.toNat_pack_mod_16
  rw [toNat_pair_af]
  omega

theorem cat_and_cat (a b c d : Byte) : cat a b &&& cat c d = cat (a &&& c) (b &&& d) :=
  BitVec.and_append

/-- AF keeps a word but for its low nibble, which F does not hold (10_state.md R32). -/
theorem CoreOn.pair_setPair_af (m : CoreOn σ) (w : Word) : (m.setPair .af w).pair .af = w &&& 0xFFF0#16 :=
  calc cat (hi8 w) (Flags.unpack (lo8 w)).pack
      = cat (hi8 w &&& BitVec.allOnes 8) (lo8 w &&& 0xF0#8) := by rw [Flags.pack_unpack, BitVec.and_allOnes]
    _ = cat (hi8 w) (lo8 w) &&& cat (BitVec.allOnes 8) 0xF0#8 := (cat_and_cat _ _ _ _).symm
    _ = w &&& 0xFFF0#16 := by rw [cat_hi8_lo8]; rfl

/-! ### Construction -/

/-- The core right after a construction that is not refused (10_state.md R37 to R39). -/
def bootCore (image : List Byte) (sp : Word) (bus : σ) : CoreOn σ :=
  { regs := { a := 0x01#8, b := 0x00#8, c := 0x13#8, d := 0x00#8, e := 0xD8#8, h := 0x01#8, l := 0x4D#8 },
    flags := bootFlags (image.getD checksumOffset 0#8),
    pc := 0x0100#16,
    sp := sp,
    bus := bus }

theorem constructOn_of_le_length (image : List Byte) (sp : Word) (bus : σ) (h : minImageLength ≤ image.length) :
    constructOn image sp bus = .ok (bootCore image sp bus) :=
  if_neg h.not_gt

theorem construct_of_le_length (b : BootInputs) (h : minImageLength ≤ b.image.length) :
    construct b = .ok (bootCore b.image b.spReset b.platform).toState := by
  rw [construct, constructOn_of_le_length _ _ _ h]
  rfl

theorem bootFlags_of_checksum_zero (image : List Byte) (h : image[checksumOffset]? = some 0x00#8) :
    bootFlags (image.getD checksumOffset 0#8) = { z := false, n := false, h := false, c := false } := by
  rw [List.getD_eq_getElem?_getD, h]
  rfl

/-- The image reaches past the checksum byte, so the default of the model's lookup is not what is read. -/
theorem bootFlags_of_checksum_ne_zero (image : List Byte) (hl : minImageLength ≤ image.length)
    (h : image[checksumOffset]? ≠ some 0x00#8) :
    bootFlags (image.getD checksumOffset 0#8) = { z := false, n := false, h := true, c := true } := by
  have hlt : checksumOffset < image.length := hl
  rw [List.getElem?_eq_getElem hlt] at h
  rw [List.getD_eq_getElem _ _ hlt]
  exact if_neg fun h0 => h (congrArg some h0)

end Sys2Proof.Machine

namespace Sys2Proof.Proofs

open Sys2Proof.Machine

/-- Settles O34: BC, DE and HL through their two halves, AF through the packed flags. -/
theorem pairViewsRoundTrip : Obligations.PairViewsRoundTrip := by
  intro s v
  refine ⟨?registerPairs, s.toNat_pair_af, s.toNat_pair_af_mod_16, s.pair_setPair_af v, ?_, ?_, rfl⟩
  case registerPairs =>
    intro ⟨p, hi, lo⟩ hq
    have halves : pairHalves p = some (hi, lo) := by
      simp only [List.mem_cons, List.not_mem_nil, or_false, Prod.mk.injEq] at hq
      rcases hq with ⟨rfl, rfl, rfl⟩ | ⟨rfl, rfl, rfl⟩ | ⟨rfl, rfl, rfl⟩ <;> rfl
    have ne_af : p ≠ .af := by
      rintro rfl
      cases halves
    refine ⟨s.toNat_pair halves, s.pair_setPair p v ne_af, ?_, ?_, ?_, s.setPair_eq ne_af v⟩
    · rw [s.reg_setPair halves, if_neg (pairHalves_ne halves), if_pos rfl, toNat_hi8]
    · rw [s.reg_setPair halves, if_pos rfl, toNat_lo8]
    · intro r hhi hlo
      rw [s.reg_setPair halves, if_neg hlo, if_neg hhi]
  · rw [← hi8_eq_ofNat]
    rfl
  · rw [← lo8_eq_ofNat]
    rfl

/-- Settles O32: unpacking loses the low nibble only, and packing leaves it zero. -/
theorem flagsRoundTripThroughTheByte : Obligations.FlagsRoundTripThroughTheByte :=
  ⟨fun f => ⟨f.unpack_pack, f.pack_and_0x0F⟩, Flags.pack_unpack⟩

/-- Settles O43: the constructed core written out, its flags by the checksum byte. -/
theorem constructionSetsThePostBootValues : Obligations.ConstructionSetsThePostBootValues := by
  intro b hl
  have hbc : cat 0x00#8 0x13#8 = 0x0013#16 := by decide
  have hde : cat 0x00#8 0xD8#8 = 0x00D8#16 := by decide
  have hhl : cat 0x01#8 0x4D#8 = 0x014D#16 := by decide
  have hafSet : cat 0x01#8 (Flags.pack { z := false, n := false, h := true, c := true }) = 0x0130#16 := by decide
  have hafZero : cat 0x01#8 (Flags.pack { z := false, n := false, h := false, c := false }) = 0x0100#16 := by decide
  refine ⟨_, construct_of_le_length b hl, rfl, rfl, rfl, rfl, rfl, rfl, rfl, hbc, hde, hhl,
    ?checksumSet, ?checksumZero, rfl, rfl⟩
  case checksumSet =>
    intro h
    have hf := bootFlags_of_checksum_ne_zero b.image hl h
    exact ⟨hf, (congrArg (cat 0x01#8) (congrArg Flags.pack hf)).trans hafSet⟩
  case checksumZero =>
    intro h
    have hf := bootFlags_of_checksum_zero b.image h
    exact ⟨hf, (congrArg (cat 0x01#8) (congrArg Flags.pack hf)).trans hafZero⟩

end Sys2Proof.Proofs
end

section
/-! PROOFS. The memory bus (20_memory.md): a write in the ROM range is a control write, and a bank index of 0 acts as 1. -/

namespace Sys2Proof.Machine

/-! ### Control writes -/

/-- A write in the ROM range succeeds and reaches the cartridge only (20_memory.md R53). -/
theorem State.busWrite_rom (s : State) (addr : Word) (v : Byte) (h : addr.toNat < 0x8000) :
    s.busWrite addr v = .ok { s with bus := { s.bus with cart := s.bus.cart.writeRom addr v } } := by
  rw [State.busWrite_eq, Platform.write, Platform.route, regionOf_rom addr h]

theorem Cartridge.writeRom_of_controlAt (c : Cartridge) {addr : Word} {k : Control} (h : c.controlAt addr = some k)
    (v : Byte) : c.writeRom addr v = c.writeControl k v := by
  rw [Cartridge.writeRom, h]

/-- A controller that coerces first masks a 1 in both cases. One that masks first turns 0 into 1 after it, and a 1 stays 1
unless the mask has no bits, when it is turned back into 1. -/
theorem Cartridge.romBankIndex_zero (c : Cartridge) : c.romBankIndex 0x00#8 = c.romBankIndex 0x01#8 := by
  unfold Cartridge.romBankIndex
  cases c.config.coerceBeforeMask with
  | true => rfl
  | false =>
    have zero_to_one : (0x00#8).toNat % 2 ^ c.config.romBankBits = 0 := Nat.zero_mod _
    have le_one : (0x01#8).toNat % 2 ^ c.config.romBankBits ≤ 1 := Nat.mod_le _ _
    rw [if_neg Bool.false_ne_true, if_neg Bool.false_ne_true, if_pos zero_to_one]
    split
    · rfl
    · omega

end Sys2Proof.Machine

namespace Sys2Proof.Proofs

open Sys2Proof.Machine

/-- Settles O41: both writes set the ROM bank alone, and to the same index. -/
theorem romBankZeroActsAsOne : Obligations.RomBankZeroActsAsOne := by
  intro s addr hrom hc
  have same_control : s.bus.cart.writeControl .romBank 0x00#8 = s.bus.cart.writeControl .romBank 0x01#8 := by
    rw [Cartridge.writeControl, Cartridge.writeControl, s.bus.cart.romBankIndex_zero]
  rw [s.busWrite_rom addr _ hrom, s.busWrite_rom addr _ hrom, Cartridge.writeRom_of_controlAt _ hc,
    Cartridge.writeRom_of_controlAt _ hc, same_control]

end Sys2Proof.Proofs
end

section
/-! PROOFS. Fetching an instruction with operand bytes (30_encoding.md R73, R77), and the absolute jump (40_jumps.md R100). -/

namespace Sys2Proof.Machine

variable {σ : Type}

/-! ### Fetching by what the opcode byte leaves to fetch -/

theorem CoreOn.fetchInstr_of_needsByte {m m1 : CoreOn σ} {bus : Bus σ} {op : Byte} {k : Byte → Instr}
    (hop : m.fetch8 bus = .ok (op, m1)) (hk : decodePrimary op = some (.needsByte k)) :
    m.fetchInstr bus = (m1.fetch8 bus).map fun r => (k r.1, r.2) := by
  simp only [CoreOn.fetchInstr, hop, hk]
  cases m1.fetch8 bus <;> rfl

theorem CoreOn.fetchInstr_of_needsWord {m m1 : CoreOn σ} {bus : Bus σ} {op : Byte} {k : Word → Instr}
    (hop : m.fetch8 bus = .ok (op, m1)) (hk : decodePrimary op = some (.needsWord k)) :
    m.fetchInstr bus = (m1.fetch16 bus).map fun r => (k r.1, r.2) := by
  simp only [CoreOn.fetchInstr, hop, hk]
  cases m1.fetch16 bus <;> rfl

theorem CoreOn.fetch16_of_low_error {m : CoreOn σ} {bus : Bus σ} {f : Fault} (h : m.fetch8 bus = .error f) :
    m.fetch16 bus = .error f := by
  rw [CoreOn.fetch16, h]

theorem CoreOn.fetch16_of_high_error {m m1 : CoreOn σ} {bus : Bus σ} {lo : Byte} {f : Fault}
    (hlo : m.fetch8 bus = .ok (lo, m1)) (h : m1.fetch8 bus = .error f) : m.fetch16 bus = .error f := by
  simp only [CoreOn.fetch16, hlo, h]

/-- A fetch from unwired space faults (20_memory.md R47). -/
theorem CoreOn.fetch8_reference_unwired (m : CoreOn Platform) (h : 0xE000 ≤ m.pc.toNat) :
    m.fetch8 referenceBus = .error (.addressing .read m.pc) :=
  (m.fetch8_reference_error_iff _).2 (m.toState.busRead_unwired m.pc h)

/-- Once the opcode byte is found, the fetch goes on one address further. -/
theorem State.fetch8_opcode (s : State) {op : Byte} (hop : s.busRead s.pc = .ok op) :
    s.toCoreOn.fetch8 referenceBus = .ok (op, s.setPc (s.pc + 1#16)) :=
  (CoreOn.fetch8_reference_ok_iff _ _ _).2 ⟨hop, rfl⟩

/-- The first fault a fetch meets ends the step (60_exceptions.md R207). -/
theorem step_of_fetchInstr_error (s : State) {f : Fault} (h : s.toCoreOn.fetchInstr referenceBus = .error f) :
    step s = .fault f := by
  rw [step, State.fetchInstr, h]
  rfl

/-! ### Unwired operand bytes -/

/-- Every covered opcode that asks for operand bytes faults when the first of them is unwired. -/
theorem operandFetchFaults_of_decodePrimary {op : Byte} {p : Pending} (hp : decodePrimary op = some p)
    (hoperand : ∀ i, p ≠ .whole i) : Claims.OperandFetchFaults op := by
  intro s hop hunwired
  have opcode := s.fetch8_opcode hop
  have operand := (s.setPc (s.pc + 1#16)).fetch8_reference_unwired hunwired
  apply step_of_fetchInstr_error
  cases p with
  | whole i => exact absurd rfl (hoperand i)
  | needsByte k =>
    rw [CoreOn.fetchInstr_of_needsByte opcode hp, operand]
    rfl
  | needsWord k =>
    rw [CoreOn.fetchInstr_of_needsWord opcode hp, CoreOn.fetch16_of_low_error operand]
    rfl

/-- A covered opcode that asks for an operand word faults at the second byte of it when that is the unwired one. -/
theorem step_of_second_operand_unwired {op : Byte} {k : Word → Instr} (hk : decodePrimary op = some (.needsWord k))
    (s : State) (hop : s.busRead s.pc = .ok op) (hwired : (s.pc + 1#16).toNat < 0xE000)
    (hunwired : 0xE000 ≤ (s.pc + 2#16).toNat) : step s = .fault (.addressing .read (s.pc + 2#16)) := by
  obtain ⟨lo, hlo⟩ := s.busRead_wired _ hwired
  have two : s.pc + 2#16 = s.pc + 1#16 + 1#16 := by rw [BitVec.add_assoc]; rfl
  rw [two] at hunwired ⊢
  have first : (s.setPc (s.pc + 1#16)).fetch8 referenceBus = .ok (lo, s.setPc (s.pc + 1#16 + 1#16)) :=
    (CoreOn.fetch8_reference_ok_iff _ _ _).2 ⟨(s.busRead_setPc _ _).trans hlo, rfl⟩
  have second := (s.setPc (s.pc + 1#16 + 1#16)).fetch8_reference_unwired hunwired
  apply step_of_fetchInstr_error
  rw [CoreOn.fetchInstr_of_needsWord (s.fetch8_opcode hop) hk, CoreOn.fetch16_of_high_error first second]
  rfl

/-! ### The absolute jump -/

theorem exec_jpNn (nn : Word) (s : State) : exec (.jpNn nn) s = .next { s with pc := nn } := rfl

theorem decodePrimary_jpNn : decodePrimary 0xC3#8 = some (.needsWord .jpNn) := rfl

theorem decode_jpNn (lo hi : Byte) (rest : List Byte) :
    decode (0xC3#8 :: lo :: hi :: rest) = .ok (.jpNn (cat hi lo), rest) := rfl

end Sys2Proof.Machine

namespace Sys2Proof.Proofs

open Sys2Proof.Machine

/-- Settles O11: the operand is the two bytes joined low first, and the fetch faults at the first unwired one. -/
theorem absoluteJumpSetsThePc : Obligations.AbsoluteJumpSetsThePc :=
  ⟨fun lo hi rest => ⟨cat hi lo, toNat_cat hi lo, decode_jpNn lo hi rest⟩, exec_jpNn,
    operandFetchFaults_of_decodePrimary decodePrimary_jpNn fun _ => Pending.noConfusion,
    step_of_second_operand_unwired decodePrimary_jpNn⟩

end Sys2Proof.Proofs
end

section
/-! PROOFS. Arithmetic and logic (41_alu.md): CP n, XOR A,r, INC rr. -/

namespace Sys2Proof

/-! ### Decoding by what the opcode byte settles -/

theorem decode_of_whole {op : Byte} {i : Instr} (h : decodePrimary op = some (.whole i)) (rest : List Byte) :
    decode (op :: rest) = .ok (i, rest) := by
  simp only [decode, h]

theorem decode_of_needsByte {op : Byte} {k : Byte → Instr} (h : decodePrimary op = some (.needsByte k)) (b : Byte)
    (rest : List Byte) : decode (op :: b :: rest) = .ok (k b, rest) := by
  simp only [decode, h]

end Sys2Proof

namespace Sys2Proof.Machine

/-! ### CP n -/

theorem decodePrimary_cpN : decodePrimary 0xFE#8 = some (.needsByte .cpN) := rfl

theorem exec_cpN (n : Byte) (s : State) :
    exec (.cpN n) s = .next { s with flags := compareFlags s.regs.a n } := rfl

theorem compareFlags_z_iff (a n : Byte) : (compareFlags a n).z = true ↔ a = n := by
  rw [compareFlags_z, decide_eq_true_iff]

/-- The zero flag is set by the wrapped result, here as a number (41_alu.md R120). -/
theorem compareFlags_z_iff_toNat (a n : Byte) :
    (compareFlags a n).z = true ↔ (a.toNat + 256 - n.toNat) % 256 = 0 := by
  have ha := a.isLt
  have hn := n.isLt
  rw [compareFlags_z_iff, ← BitVec.toNat_inj]
  omega

theorem compareFlags_n (a n : Byte) : (compareFlags a n).n = true := rfl

theorem compareFlags_h_iff (a n : Byte) : (compareFlags a n).h = true ↔ a.toNat % 16 < n.toNat % 16 :=
  decide_eq_true_iff

theorem compareFlags_c_iff (a n : Byte) : (compareFlags a n).c = true ↔ a.toNat < n.toNat :=
  decide_eq_true_iff

/-- Equal operands do not borrow. -/
theorem compareFlags_not_z_and_c (a n : Byte) : ¬((compareFlags a n).z = true ∧ (compareFlags a n).c = true) := by
  rw [compareFlags_z_iff, compareFlags_c_iff]
  rintro ⟨rfl, hlt⟩
  exact lt_irrefl _ hlt

/-! ### XOR A,r -/

/-- An exclusive or is zero exactly when its operands are equal. -/
theorem xorFlags_xor (a b : Byte) :
    xorFlags (a ^^^ b) = { z := decide (a = b), n := false, h := false, c := false } := by
  have hz : decide (a ^^^ b = 0#8) = decide (a = b) := decide_eq_decide.2 BitVec.xor_eq_zero_iff
  rw [xorFlags, hz]

/-- The next state of XOR A,r, from the state before (41_alu.md R121). -/
theorem exec_xor {i : Instr} {r : RegSel} (h : i.tag = .xorR r) (s : State) :
    exec i s = .next { s with
      regs := { s.regs with a := s.regs.a ^^^ s.reg r },
      flags := { z := decide (s.regs.a = s.reg r), n := false, h := false, c := false } } := by
  rw [exec_of_xor i r s h, ← xorFlags_xor]
  rfl

/-- XOR of A with itself (41_alu.md R128). -/
theorem exec_xorA (s : State) : exec .xorA s = .next { s with
    regs := { s.regs with a := 0x00#8 }, flags := { z := true, n := false, h := false, c := false } } := by
  have zero : s.regs.a ^^^ s.reg .a = 0x00#8 := BitVec.xor_self
  have equal : decide (s.regs.a = s.reg .a) = true := decide_eq_true rfl
  rw [exec_xor rfl, zero, equal]

/-! ### INC rr -/

theorem pairHalves_ne_af {p : PairSel} {hi lo : RegSel} (h : pairHalves p = some (hi, lo)) : p ≠ .af := by
  rintro rfl
  cases h

theorem exec_inc {i : Instr} {p : PairSel} (h : i.tag = .incRr p) (s : State) :
    exec i s = .next (s.setPair p (s.pair p + 1#16)).toState := by
  rw [exec_of_inc i p s h]
  rfl

variable {σ : Type}

/-- The two halves of an incremented pair, as one number (41_alu.md R129). -/
theorem CoreOn.halves_of_increment (m : CoreOn σ) {p : PairSel} {hi lo : RegSel} (h : pairHalves p = some (hi, lo)) :
    ((m.setPair p (m.pair p + 1#16)).reg hi).toNat * 256 + ((m.setPair p (m.pair p + 1#16)).reg lo).toNat =
      ((m.reg hi).toNat * 256 + (m.reg lo).toNat + 1) % 65536 := by
  rw [← CoreOn.toNat_pair _ h, m.pair_setPair p _ (pairHalves_ne_af h), BitVec.toNat_add, m.toNat_pair h]
  rfl

theorem CoreOn.reg_setPair_of_ne (m : CoreOn σ) {p : PairSel} {hi lo r : RegSel} (h : pairHalves p = some (hi, lo))
    (w : Word) (hhi : r ≠ hi) (hlo : r ≠ lo) : (m.setPair p w).reg r = m.reg r := by
  rw [m.reg_setPair h, if_neg hlo, if_neg hhi]

end Sys2Proof.Machine

namespace Sys2Proof.Proofs

open Sys2Proof.Machine Sys2Proof.Claims

/-! ### The rows of the opcode map (30_encoding.md R78) -/

theorem xorForms_row : ∀ f ∈ xorForms, decodePrimary f.1 = some (.whole f.2.1) ∧ f.2.1.tag = .xorR f.2.2 := by
  simp only [xorForms, List.forall_mem_cons]
  exact ⟨⟨rfl, rfl⟩, ⟨rfl, rfl⟩, ⟨rfl, rfl⟩, ⟨rfl, rfl⟩, ⟨rfl, rfl⟩, ⟨rfl, rfl⟩, ⟨rfl, rfl⟩, List.forall_mem_nil _⟩

theorem incForms_row : ∀ f ∈ incForms, decodePrimary f.1 = some (.whole f.2.1) ∧
    ∃ p, f.2.1.tag = .incRr p ∧ pairHalves p = some (f.2.2.1, f.2.2.2) := by
  simp only [incForms, List.forall_mem_cons]
  exact ⟨⟨rfl, .bc, rfl, rfl⟩, ⟨rfl, .de, rfl, rfl⟩, ⟨rfl, .hl, rfl, rfl⟩, List.forall_mem_nil _⟩

/-- Settles O15: the next state writes the flags of the comparison only, and each of them is a fact about numbers. -/
theorem compareWritesAllFourFlags : Obligations.CompareWritesAllFourFlags := by
  refine ⟨decode_of_needsByte decodePrimary_cpN,
    operandFetchFaults_of_decodePrimary decodePrimary_cpN fun _ => Pending.noConfusion, ?completes⟩
  case completes =>
    intro n s
    exact ⟨_, exec_cpN n s, rfl, compareFlags_z_iff_toNat _ _, compareFlags_z_iff _ _, compareFlags_n _ _,
      compareFlags_h_iff _ _, compareFlags_c_iff _ _, compareFlags_not_z_and_c _ _⟩

/-- Settles O17: the pair view of the written pair is the sum, and the write reaches its two registers only. -/
theorem pairIncrementWrapsAndTouchesNoFlag : Obligations.PairIncrementWrapsAndTouchesNoFlag := by
  intro f hf
  obtain ⟨decodes, p, tag, halves⟩ := incForms_row f hf
  refine ⟨decode_of_whole decodes, fun s => ⟨_, exec_inc tag s, s.halves_of_increment halves, ?others, ?frame⟩⟩
  case others => exact fun r hhi hlo => s.reg_setPair_of_ne halves _ hhi hlo
  case frame => exact congrArg CoreOn.toState (s.setPair_eq (pairHalves_ne_af halves) _)

/-- Settles O16: one form at a time through its row of the opcode map, and the corner A with A. -/
theorem xorWritesAAndAllFourFlags : Obligations.XorWritesAAndAllFourFlags := by
  refine ⟨fun f hf => ?_, exec_xorA⟩
  obtain ⟨decodes, tag⟩ := xorForms_row f hf
  exact ⟨decode_of_whole decodes, exec_xor tag⟩

end Sys2Proof.Proofs
end

section
/-! PROOFS. Loads and stores (42_loads.md): LD r,n, LD (rr),r, LD r,(rr). -/

namespace Sys2Proof.Machine

/-! ### The write of one byte register -/

/-- A register write of the machine: the register holds the byte, every other register and all else stays
(10_state.md R11). -/
theorem State.setReg_writes_only (s : State) (r : RegSel) (v : Byte) :
    (s.setReg r v).toState.reg r = v ∧ (∀ q : RegSel, q ≠ r → (s.setReg r v).toState.reg q = s.reg q) ∧
      (s.setReg r v).toState = { s with regs := (s.setReg r v).toState.regs } := by
  refine ⟨?written, fun q hq => ?others, congrArg CoreOn.toState (s.setReg_eq r v)⟩
  case written => rw [CoreOn.toState_toCoreOn, CoreOn.reg_setReg, if_pos rfl]
  case others => rw [CoreOn.toState_toCoreOn, CoreOn.reg_setReg, if_neg hq]

/-! ### The three meanings -/

/-- LD r,n completes in every state (42_loads.md R140). -/
theorem exec_of_loadImmediate {i : Instr} {r : RegSel} (h : i.tag = .ldRN r) (s : State) :
    exec i s = .next (s.setReg r i.byteOperand).toState := by
  rw [exec_eq_onReference, onReference, execOn_of_tag _ _ _ _ h]
  rfl

/-- LD (rr),r goes on with the state the bus write gives (42_loads.md R148). -/
theorem exec_store_next {i : Instr} {p : PairSel} {r : RegSel} (h : i.tag = .stRrR p r) {s t : State}
    (hw : s.busWrite (s.pair p) (s.reg r) = .ok t) : exec i s = .next t := by
  rw [exec_of_store i p r s h, hw]
  rfl

theorem exec_store_unwired {i : Instr} {p : PairSel} {r : RegSel} (h : i.tag = .stRrR p r) (s : State)
    (hunwired : 0xE000 ≤ (s.pair p).toNat) : exec i s = .fault (.addressing .write (s.pair p)) := by
  rw [exec_of_store i p r s h, s.busWrite_unwired _ _ hunwired]
  rfl

/-- LD r,(rr) goes on with the byte the bus answers in the register (42_loads.md R160). -/
theorem exec_load_next {i : Instr} {p : PairSel} {r : RegSel} (h : i.tag = .ldRRr r p) {s : State} {b : Byte}
    (hb : s.busRead (s.pair p) = .ok b) : exec i s = .next (s.setReg r b).toState := by
  rw [exec_of_load i p r s h, hb]
  rfl

theorem exec_load_unwired {i : Instr} {p : PairSel} {r : RegSel} (h : i.tag = .ldRRr r p) (s : State)
    (hunwired : 0xE000 ≤ (s.pair p).toNat) : exec i s = .fault (.addressing .read (s.pair p)) := by
  rw [exec_of_load i p r s h, s.busRead_unwired _ hunwired]
  rfl

/-- A bus write leaves every place the address is not routed to (20_memory.md R41). -/
theorem State.load_busWrite_ne {s t : State} {addr : Word} {v : Byte} (h : s.busWrite addr v = .ok t) (q : Route)
    (hq : q ≠ s.bus.route addr) : t.bus.load q = s.bus.load q :=
  Platform.load_write_ne s.bus t.bus addr v ((s.busWrite_ok_iff t addr v).1 h).1 q hq

end Sys2Proof.Machine

namespace Sys2Proof.Proofs

open Sys2Proof.Machine Sys2Proof.Claims

/-! ### The rows of the opcode map (30_encoding.md R78) -/

theorem immediateForms_row : ∀ f ∈ immediateForms, decodePrimary f.1 = some (.needsByte f.2.1) ∧
    ∀ n, (f.2.1 n).tag = .ldRN f.2.2 ∧ (f.2.1 n).byteOperand = n := by
  simp only [immediateForms, List.forall_mem_cons]
  exact ⟨⟨rfl, fun _ => ⟨rfl, rfl⟩⟩, ⟨rfl, fun _ => ⟨rfl, rfl⟩⟩, ⟨rfl, fun _ => ⟨rfl, rfl⟩⟩, ⟨rfl, fun _ => ⟨rfl, rfl⟩⟩,
    ⟨rfl, fun _ => ⟨rfl, rfl⟩⟩, ⟨rfl, fun _ => ⟨rfl, rfl⟩⟩, ⟨rfl, fun _ => ⟨rfl, rfl⟩⟩, List.forall_mem_nil _⟩

theorem storeForms_row : ∀ f ∈ storeForms,
    decodePrimary f.1 = some (.whole f.2.1) ∧ f.2.1.tag = .stRrR f.2.2.1 f.2.2.2 := by
  simp only [storeForms, List.forall_mem_cons]
  exact ⟨⟨rfl, rfl⟩, ⟨rfl, rfl⟩, ⟨rfl, rfl⟩, ⟨rfl, rfl⟩, ⟨rfl, rfl⟩, ⟨rfl, rfl⟩, ⟨rfl, rfl⟩, ⟨rfl, rfl⟩, ⟨rfl, rfl⟩,
    List.forall_mem_nil _⟩

theorem loadForms_row : ∀ f ∈ loadForms,
    decodePrimary f.1 = some (.whole f.2.1) ∧ f.2.1.tag = .ldRRr f.2.2.2 f.2.2.1 := by
  simp only [loadForms, List.forall_mem_cons]
  exact ⟨⟨rfl, rfl⟩, ⟨rfl, rfl⟩, ⟨rfl, rfl⟩, ⟨rfl, rfl⟩, ⟨rfl, rfl⟩, ⟨rfl, rfl⟩, ⟨rfl, rfl⟩, ⟨rfl, rfl⟩, ⟨rfl, rfl⟩,
    List.forall_mem_nil _⟩

/-- Settles O19: the bus takes a write at every wired address, and the store is that write. -/
theorem storeHandsTheRegisterToTheBus : Obligations.StoreHandsTheRegisterToTheBus := by
  intro f hf
  obtain ⟨decodes, tag⟩ := storeForms_row f hf
  refine ⟨decode_of_whole decodes, fun s hwired => ?wired, exec_store_unwired tag⟩
  case wired =>
    obtain ⟨t, ht⟩ := s.busWrite_wired _ (s.reg f.2.2.2) hwired
    obtain ⟨core_unchanged, -⟩ := s.busWrite_frame t _ _ ht
    exact ⟨t, exec_store_next tag ht, ht, core_unchanged, State.load_busWrite_ne ht⟩

/-- Settles O21: the bus answers at every wired address, and the load is a register write of the answer. -/
theorem loadTakesTheByteFromTheBus : Obligations.LoadTakesTheByteFromTheBus := by
  intro f hf
  obtain ⟨decodes, tag⟩ := loadForms_row f hf
  refine ⟨decode_of_whole decodes, fun s hwired => ?wired, exec_load_unwired tag⟩
  case wired =>
    obtain ⟨b, hb⟩ := s.busRead_wired _ hwired
    exact ⟨b, _, hb, exec_load_next tag hb, s.setReg_writes_only _ b⟩

/-- Settles O18: the load is a register write of the operand byte, and its fetch is the only thing that can fault. -/
theorem loadImmediateWritesOneRegister : Obligations.LoadImmediateWritesOneRegister := by
  intro f hf
  obtain ⟨decodes, form⟩ := immediateForms_row f hf
  refine ⟨decode_of_needsByte decodes, operandFetchFaults_of_decodePrimary decodes fun _ => Pending.noConfusion,
    fun n s => ?completes⟩
  case completes =>
    obtain ⟨tag, operand⟩ := form n
    have goes_on := exec_of_loadImmediate tag s
    rw [operand] at goes_on
    exact ⟨_, goes_on, s.setReg_writes_only _ n⟩

end Sys2Proof.Proofs
end

section
/-! PROOFS. Exceptions (60_exceptions.md): an opcode byte outside the covered set. -/

namespace Sys2Proof.Machine

open Sys2Proof.Claims

/-- The decoder answers no byte of the list of 30_encoding.md R79: none of the 51 covered opcodes stands in it, which
leaves the last branch of the match. -/
theorem decodePrimary_of_uncovered {op : Byte} (h : op.toNat ∈ uncoveredOpcodes) : decodePrimary op = none := by
  unfold decodePrimary
  split
  case h_52 => rfl
  all_goals exact absurd h (by decide)

variable {σ : Type}

/-- The fetch ends at an opcode byte the decoder does not answer, before any operand byte (60_exceptions.md R201). -/
theorem CoreOn.fetchInstr_of_uncovered {m m1 : CoreOn σ} {bus : Bus σ} {op : Byte}
    (hop : m.fetch8 bus = .ok (op, m1)) (hnone : decodePrimary op = none) :
    m.fetchInstr bus = .error (.decodePrimary op m.pc) := by
  simp only [CoreOn.fetchInstr, hop, hnone]

end Sys2Proof.Machine

namespace Sys2Proof.Proofs

open Sys2Proof.Machine

/-- Settles O2: the byte is fetched and the decoder does not answer it, so the fetch ends the step. -/
theorem uncoveredOpcodeRaisesDecodeFault : Obligations.UncoveredOpcodeRaisesDecodeFault := by
  refine ⟨rfl, fun s op hop huncovered => ?faults⟩
  case faults =>
    have fetch_ends := CoreOn.fetchInstr_of_uncovered (s.fetch8_opcode hop) (decodePrimary_of_uncovered huncovered)
    exact step_of_fetchInstr_error s fetch_ends

end Sys2Proof.Proofs
end

section
/-! PROOFS. Encoding (30_encoding.md): the decoder and the encoder undo each other. -/

namespace Sys2Proof

open Machine

/-! ### From an instruction to its bytes and back -/

theorem decode_of_needsWord {op : Byte} {k : Word → Instr} (h : decodePrimary op = some (.needsWord k)) (w : Word)
    (rest : List Byte) : decode (op :: lo8 w :: hi8 w :: rest) = .ok (k w, rest) := by
  simp only [decode, h, cat_hi8_lo8]

/-- What the opcode byte of an instruction leaves to fetch is its operand bytes (30_encoding.md R70, R78). -/
theorem Instr.opcode_cases (i : Instr) :
    (decodePrimary i.opcode = some (.whole i) ∧ i.operandBytes = []) ∨
    (∃ k b, decodePrimary i.opcode = some (.needsByte k) ∧ k b = i ∧ i.operandBytes = [b]) ∨
    (∃ k w, decodePrimary i.opcode = some (.needsWord k) ∧ k w = i ∧ i.operandBytes = [lo8 w, hi8 w]) := by
  cases i with
  | ldBN b | ldCN b | ldDN b | ldEN b | ldHN b | ldLN b | ldAN b | cpN b | jrNz b | jrZ b | jrNc b | jrC b | prefixX b =>
    exact .inr (.inl ⟨_, b, rfl, rfl, rfl⟩)
  | jpNn w => exact .inr (.inr ⟨_, w, rfl, rfl, rfl⟩)
  | _ => exact .inl ⟨rfl, rfl⟩

theorem decode_encode_append (i : Instr) (rest : List Byte) : decode (encode i ++ rest) = .ok (i, rest) := by
  rcases i.opcode_cases with ⟨hd, ho⟩ | ⟨k, b, hd, hk, ho⟩ | ⟨k, w, hd, hk, ho⟩ <;> rw [encode, ho]
  · exact decode_of_whole hd rest
  · exact hk ▸ decode_of_needsByte hd b rest
  · exact hk ▸ decode_of_needsWord hd w rest

/-! ### From bytes to their instruction and back -/

theorem encode_of_decodePrimary_whole {op : Byte} {i : Instr} (h : decodePrimary op = some (.whole i)) :
    encode i = [op] := by
  rcases decodePrimary_cases op _ h with ⟨_, ⟨⟩, he⟩ | ⟨_, ⟨⟩, _⟩ | ⟨_, ⟨⟩, _⟩
  exact he

theorem encode_of_decodePrimary_needsByte {op : Byte} {k : Byte → Instr} (h : decodePrimary op = some (.needsByte k))
    (b : Byte) : encode (k b) = [op, b] := by
  rcases decodePrimary_cases op _ h with ⟨_, ⟨⟩, _⟩ | ⟨_, ⟨⟩, he⟩ | ⟨_, ⟨⟩, _⟩
  exact he b

theorem encode_of_decodePrimary_needsWord {op : Byte} {k : Word → Instr} (h : decodePrimary op = some (.needsWord k))
    (lo hi : Byte) : encode (k (cat hi lo)) = [op, lo, hi] := by
  rcases decodePrimary_cases op _ h with ⟨_, ⟨⟩, _⟩ | ⟨_, ⟨⟩, _⟩ | ⟨_, ⟨⟩, he⟩
  rw [he, lo8_cat, hi8_cat]

theorem eq_encode_append_of_decode {bs rest : List Byte} {i : Instr} (h : decode bs = .ok (i, rest)) :
    bs = encode i ++ rest := by
  rcases decode_ok_cases bs rest i h with ⟨op, rfl, hd⟩ | ⟨op, k, b, rfl, hd, rfl⟩ | ⟨op, k, lo, hi, rfl, hd, rfl⟩
  · rw [encode_of_decodePrimary_whole hd]
    rfl
  · rw [encode_of_decodePrimary_needsByte hd]
    rfl
  · rw [encode_of_decodePrimary_needsWord hd]
    rfl

theorem eq_encode_of_decode {bs : List Byte} {i : Instr} (h : decode bs = .ok (i, [])) : bs = encode i :=
  (eq_encode_append_of_decode h).trans (List.append_nil _)

theorem encode_length (i : Instr) : (encode i).length = i.length := by
  cases i <;> rfl

end Sys2Proof

namespace Sys2Proof.Proofs

open Sys2Proof.Machine

/-- Settles O6, by what the opcode byte of the instruction leaves to fetch. -/
theorem decodeInvertsEncode : Obligations.DecodeInvertsEncode := decode_encode_append

/-- Settles O7, by the three shapes of a sequence that decodes. -/
theorem encodeInvertsDecode : Obligations.EncodeInvertsDecode := fun _ _ _ => eq_encode_append_of_decode

/-- Settles O8: each word is one of the decoder's rows. -/
theorem tableWordsDecode : Obligations.TableWordsDecode := by
  unfold Obligations.TableWordsDecode
  decide

end Sys2Proof.Proofs
end

section
/-! PROOFS. A step as a fetch and a meaning (30_encoding.md R73): a fetch finds the bytes of its instruction one after the
other, or ends in the fault of a byte it does not find. -/

namespace Sys2Proof.Machine

variable {σ : Type}

/-! ### Fetching a list of bytes -/

/-- The bytes are what fetching one by one answers, and the core then is as given. -/
def CoreOn.Fetches (bus : Bus σ) : CoreOn σ → List Byte → CoreOn σ → Prop
  | m, [], m' => m' = m
  | m, b :: bs, m' => ∃ m1, m.fetch8 bus = .ok (b, m1) ∧ CoreOn.Fetches bus m1 bs m'

theorem CoreOn.fetchInstr_of_whole {m m1 : CoreOn σ} {bus : Bus σ} {op : Byte} {i : Instr}
    (hop : m.fetch8 bus = .ok (op, m1)) (hi : decodePrimary op = some (.whole i)) : m.fetchInstr bus = .ok (i, m1) := by
  simp only [CoreOn.fetchInstr, hop, hi]

theorem CoreOn.fetch16_ok_iff (m m' : CoreOn σ) (bus : Bus σ) (w : Word) :
    m.fetch16 bus = .ok (w, m') ↔ ∃ lo hi, w = cat hi lo ∧ CoreOn.Fetches bus m [lo, hi] m' := by
  unfold CoreOn.fetch16
  constructor
  · intro h
    split at h
    · cases h
    · next lo m1 hlo =>
      split at h
      · cases h
      · next hi m2 hhi =>
        cases h
        exact ⟨lo, hi, rfl, m1, hlo, m', hhi, rfl⟩
  · rintro ⟨lo, hi, rfl, m1, hlo, m2, hhi, rfl⟩
    simp only [hlo, hhi]

/-- A fetch that succeeds has found exactly the bytes of its instruction (30_encoding.md R70, R73). -/
theorem CoreOn.fetches_of_fetchInstr {m m' : CoreOn σ} {bus : Bus σ} {i : Instr} (h : m.fetchInstr bus = .ok (i, m')) :
    CoreOn.Fetches bus m (encode i) m' := by
  unfold CoreOn.fetchInstr at h
  split at h
  · cases h
  · next op m1 hop =>
    split at h
    · cases h
    · next j hd =>
      cases h
      rw [encode_of_decodePrimary_whole hd]
      exact ⟨m', hop, rfl⟩
    · next k hd =>
      split at h
      · cases h
      · next b m2 hb =>
        cases h
        rw [encode_of_decodePrimary_needsByte hd]
        exact ⟨m1, hop, m', hb, rfl⟩
    · next k hd =>
      split at h
      · cases h
      · next w m2 hw =>
        cases h
        obtain ⟨lo, hi, rfl, operand⟩ := (CoreOn.fetch16_ok_iff _ _ _ _).1 hw
        rw [encode_of_decodePrimary_needsWord hd]
        exact ⟨m1, hop, operand⟩

theorem CoreOn.fetchInstr_of_fetches {m m' : CoreOn σ} {bus : Bus σ} {i : Instr}
    (h : CoreOn.Fetches bus m (encode i) m') : m.fetchInstr bus = .ok (i, m') := by
  obtain ⟨m1, hop, operands⟩ := h
  rcases i.opcode_cases with ⟨hd, ho⟩ | ⟨k, b, hd, hk, ho⟩ | ⟨k, w, hd, hk, ho⟩ <;> rw [ho] at operands
  · cases operands
    exact CoreOn.fetchInstr_of_whole hop hd
  · obtain ⟨m2, hb, rfl⟩ := operands
    rw [CoreOn.fetchInstr_of_needsByte hop hd, hb, ← hk]
    rfl
  · have hw : m1.fetch16 bus = .ok (w, m') :=
      (CoreOn.fetch16_ok_iff _ _ _ _).2 ⟨lo8 w, hi8 w, (cat_hi8_lo8 w).symm, operands⟩
    rw [CoreOn.fetchInstr_of_needsWord hop hd, hw, ← hk]
    rfl

theorem CoreOn.fetchInstr_ok_iff (m m' : CoreOn σ) (bus : Bus σ) (i : Instr) :
    m.fetchInstr bus = .ok (i, m') ↔ CoreOn.Fetches bus m (encode i) m' :=
  ⟨CoreOn.fetches_of_fetchInstr, CoreOn.fetchInstr_of_fetches⟩

/-! ### The faults of a fetch -/

theorem CoreOn.fetch16_error {m : CoreOn σ} {bus : Bus σ} {f : Fault} (h : m.fetch16 bus = .error f) :
    ∃ q a, bus.read q a = none ∧ f = .addressing .read a := by
  unfold CoreOn.fetch16 at h
  split at h
  · next hlo =>
    cases h
    exact ⟨_, _, (CoreOn.fetch8_error_iff _ _ _).1 hlo⟩
  · split at h
    · next hhi =>
      cases h
      exact ⟨_, _, (CoreOn.fetch8_error_iff _ _ _).1 hhi⟩
    · cases h

/-- A fetch that fails has found an opcode byte the decoder does not answer, or an address the bus does not answer
(60_exceptions.md R201, R204). -/
theorem CoreOn.fetchInstr_error {m : CoreOn σ} {bus : Bus σ} {f : Fault} (h : m.fetchInstr bus = .error f) :
    (∃ op q, bus.read m.bus m.pc = some (op, q) ∧ decodePrimary op = none ∧ f = .decodePrimary op m.pc) ∨
    ∃ q a, bus.read q a = none ∧ f = .addressing .read a := by
  unfold CoreOn.fetchInstr at h
  split at h
  · next hop =>
    cases h
    exact .inr ⟨_, _, (CoreOn.fetch8_error_iff _ _ _).1 hop⟩
  · next op m1 hop =>
    obtain ⟨q, hread, -⟩ := (CoreOn.fetch8_ok_iff _ _ _ _).1 hop
    split at h
    · next hd =>
      cases h
      exact .inl ⟨op, q, hread, hd, rfl⟩
    · cases h
    · split at h
      · next hb =>
        cases h
        exact .inr ⟨_, _, (CoreOn.fetch8_error_iff _ _ _).1 hb⟩
      · cases h
    · split at h
      · next hw =>
        cases h
        exact .inr (CoreOn.fetch16_error hw)
      · cases h

/-! ### Fetching on the reference bus -/

/-- On the reference bus a fetch finds the bytes of memory and moves PC only (20_memory.md R41). -/
theorem CoreOn.fetches_reference_iff (m m' : CoreOn Platform) (bs : List Byte) :
    CoreOn.Fetches referenceBus m bs m' ↔
      m.toState.bytesAt m.pc bs ∧ m' = m.setPc (m.pc + BitVec.ofNat 16 bs.length) := by
  induction bs generalizing m with
  | nil => simp [CoreOn.Fetches, State.bytesAt, CoreOn.setPc]
  | cons b bs ih =>
    have past : m.pc + 1#16 + BitVec.ofNat 16 bs.length = m.pc + BitVec.ofNat 16 (b :: bs).length := by
      rw [List.length_cons, Nat.add_comm, BitVec.ofNat_add, BitVec.add_assoc]
    have rest := m.toState.bytesAt_setPc (m.pc + 1#16) (m.pc + 1#16) bs
    rw [CoreOn.toState_toCoreOn] at rest
    simp only [CoreOn.Fetches, CoreOn.fetch8_reference_ok_iff, State.bytesAt, ih]
    constructor
    · rintro ⟨_, ⟨hb, rfl⟩, hbs, rfl⟩
      exact ⟨⟨hb, rest.1 hbs⟩, congrArg m.setPc past⟩
    · rintro ⟨⟨hb, hbs⟩, rfl⟩
      exact ⟨_, ⟨hb, rfl⟩, rest.2 hbs, congrArg m.setPc past.symm⟩

/-- The machine once the fetch has moved PC past the instruction (10_state.md R25). -/
def State.past (s : State) (i : Instr) : State := (s.setPc (s.pc + BitVec.ofNat 16 i.length)).toState

theorem State.fetchInstr_core_ok_iff (s : State) (m : CoreOn Platform) (i : Instr) :
    s.toCoreOn.fetchInstr referenceBus = .ok (i, m) ↔ s.bytesAt s.pc (encode i) ∧ m = (s.past i).toCoreOn := by
  rw [CoreOn.fetchInstr_ok_iff, CoreOn.fetches_reference_iff, encode_length]
  rfl

/-! ### The step -/

/-- A step runs the instruction whose bytes stand at PC (30_encoding.md R73). -/
theorem step_of_bytesAt {s : State} {i : Instr} (h : s.bytesAt s.pc (encode i)) : step s = exec i (s.past i) := by
  rw [step, State.fetchInstr, (s.fetchInstr_core_ok_iff _ _).2 ⟨h, rfl⟩]
  rfl

/-- What a step is: the fault of its fetch, or the meaning of the instruction at PC. -/
theorem step_cases (s : State) :
    (∃ f, s.toCoreOn.fetchInstr referenceBus = .error f ∧ step s = .fault f) ∨
    ∃ i, s.bytesAt s.pc (encode i) ∧ step s = exec i (s.past i) := by
  cases h : s.toCoreOn.fetchInstr referenceBus with
  | error f => exact .inl ⟨f, rfl, step_of_fetchInstr_error s h⟩
  | ok r =>
    obtain ⟨bytes, -⟩ := (s.fetchInstr_core_ok_iff r.2 r.1).1 h
    exact .inr ⟨r.1, bytes, step_of_bytesAt bytes⟩

theorem step_next {s t : State} (h : step s = .next t) :
    ∃ i, s.bytesAt s.pc (encode i) ∧ exec i (s.past i) = .next t := by
  rcases step_cases s with ⟨f, -, e⟩ | ⟨i, bytes, e⟩ <;> rw [e] at h
  · cases h
  · exact ⟨i, bytes, h⟩

/-- The same of a step on any bus. -/
theorem stepOn_cases (bus : Bus σ) (m : CoreOn σ) :
    (∃ f, m.fetchInstr bus = .error f ∧ stepOn bus m = .fault f) ∨
    ∃ i m', m.fetchInstr bus = .ok (i, m') ∧ stepOn bus m = execOn bus i m' := by
  unfold stepOn
  cases m.fetchInstr bus with
  | error f => exact .inl ⟨f, rfl, rfl⟩
  | ok r => exact .inr ⟨r.1, r.2, rfl, rfl⟩

theorem stepOn_of_fetchInstr {bus : Bus σ} {m m' : CoreOn σ} {i : Instr} (h : m.fetchInstr bus = .ok (i, m')) :
    stepOn bus m = execOn bus i m' := by
  rw [stepOn, h]

end Sys2Proof.Machine

namespace Sys2Proof.Proofs

open Sys2Proof.Machine

/-- Settles O1: the bytes are the instruction's encoding, which is what the fetch finds. -/
theorem stepRunsTheDecodedInstruction : Obligations.StepRunsTheDecodedInstruction := by
  intro s i bs hd bytes
  obtain rfl := eq_encode_of_decode hd
  rw [encode_length]
  exact step_of_bytesAt bytes

/-- Settles O3: the fetch of the opcode byte is the first thing a step does. -/
theorem unwiredOpcodeFetchFaultsFirst : Obligations.UnwiredOpcodeFetchFaultsFirst := by
  intro s hunwired
  apply step_of_fetchInstr_error
  rw [CoreOn.fetchInstr, CoreOn.fetch8_reference_unwired _ hunwired]

/-- Settles O47: both fetch on the reference bus, and each meaning of the machine is the core's. -/
theorem stepIsTheCoreOnTheReferenceBus : Obligations.StepIsTheCoreOnTheReferenceBus := by
  intro s
  rw [step, State.fetchInstr, onReference, stepOn]
  cases s.toCoreOn.fetchInstr referenceBus with
  | error f => rfl
  | ok r => exact exec_eq_onReference r.1 r.2.toState

end Sys2Proof.Proofs
end

section
/-! PROOFS. The reference platform's bus (20_memory.md): plain memory, the ROM banks and their controls, cartridge RAM. -/

namespace Sys2Proof.Machine

/-! ### Reads by range -/

theorem State.busRead_vram (s : State) {addr : Word} (hlo : 0x8000 ≤ addr.toNat) (hhi : addr.toNat < 0xA000) :
    s.busRead addr = .ok (Memory.read s.bus.vram addr.toNat) := by
  rw [State.busRead_eq, Platform.route, regionOf, if_neg (by omega), if_pos hhi]
  rfl

theorem State.busRead_wram (s : State) {addr : Word} (hlo : 0xC000 ≤ addr.toNat) (hhi : addr.toNat < 0xE000) :
    s.busRead addr = .ok (Memory.read s.bus.wram addr.toNat) := by
  rw [State.busRead_eq, Platform.route, regionOf, if_neg (by omega), if_neg (by omega), if_neg (by omega), if_pos hhi]
  rfl

theorem State.busRead_rom (s : State) {addr : Word} (h : addr.toNat < 0x8000) :
    s.busRead addr = .ok (s.bus.cart.romByte (s.bus.cart.romOffset addr)) := by
  rw [State.busRead_eq, Platform.route, regionOf_rom addr h]
  rfl

theorem Cartridge.romByte_of_lt (c : Cartridge) {k : Nat} (h : k < c.romSize) : c.romByte k = Memory.read c.rom k :=
  if_pos h

theorem Cartridge.romOffset_low (c : Cartridge) {addr : Word} (h : addr.toNat < 0x4000) :
    c.romOffset addr = addr.toNat :=
  if_pos h

theorem Cartridge.romOffset_high (c : Cartridge) {addr : Word} (h : 0x4000 ≤ addr.toNat) :
    c.romOffset addr = c.readBank * 0x4000 + (addr.toNat - 0x4000) :=
  if_neg h.not_gt

theorem Cartridge.readBank_of_pos (c : Cartridge) (h : 1 ≤ c.romBank) : c.readBank = c.romBank :=
  if_neg (by omega)

theorem Cartridge.readBank_of_zero (c : Cartridge) (h : c.romBank = 0) :
    c.readBank = if c.config.zeroReadsBankOne then 1 else 0 :=
  if_pos h

/-! ### Control writes -/

theorem Cartridge.writeRom_of_unclaimed (c : Cartridge) {addr : Word} (h : c.controlAt addr = none) (v : Byte) :
    c.writeRom addr v = c := by
  rw [Cartridge.writeRom, h]

theorem Cartridge.controlAt_eq_none (c : Cartridge) {addr : Word}
    (h : ∀ w ∈ c.config.windows, ¬(w.lo ≤ addr.toNat ∧ addr.toNat ≤ w.hi)) : c.controlAt addr = none := by
  rw [Cartridge.controlAt, List.find?_eq_none.2, Option.map_none]
  intro w hw
  simpa using h w hw

theorem Cartridge.ramBank_of_control (c : Cartridge) (v : Byte) :
    (c.writeControl .ramBank v).ramBank.val = v.toNat % 4 := rfl

theorem Cartridge.romBankIndex_of_coerceBeforeMask (c : Cartridge) (h : c.config.coerceBeforeMask = true) (v : Byte) :
    c.romBankIndex v = (if v.toNat = 0 then 1 else v.toNat) % 2 ^ c.config.romBankBits :=
  if_pos h

theorem Cartridge.romBankIndex_of_maskBeforeCoerce (c : Cartridge) (h : c.config.coerceBeforeMask = false) (v : Byte) :
    c.romBankIndex v =
      if v.toNat % 2 ^ c.config.romBankBits = 0 then 1 else v.toNat % 2 ^ c.config.romBankBits :=
  if_neg (by rw [h]; exact Bool.false_ne_true)

/-! ### Cartridge RAM -/

theorem Cartridge.eq_ramOffset (c : Cartridge) {addr : Word} {k : Nat}
    (h : k = c.ramBank.val * c.config.ramStride + (addr.toNat - 0xA000)) : k = c.ramOffset addr := by
  unfold Cartridge.ramOffset
  exact h

theorem Cartridge.ramReady_eq_false (c : Cartridge) (h : c.ramEnabled = false ∨ c.config.ramSize = 0) :
    c.ramReady = false := by
  rcases h with h | h <;> simp [Cartridge.ramReady, h]

theorem Platform.route_ramDenied (p : Platform) (h : p.cart.ramReady = false) {addr : Word} (hlo : 0xA000 ≤ addr.toNat)
    (hhi : addr.toNat < 0xC000) : p.route addr = .ramDenied := by
  rw [Platform.route, regionOf_cartRam addr hlo hhi]
  exact if_pos h

/-- Denied cartridge RAM answers the sentinel (20_memory.md R54). -/
theorem State.busRead_ramDenied (s : State) (h : s.bus.cart.ramReady = false) {addr : Word} (hlo : 0xA000 ≤ addr.toNat)
    (hhi : addr.toNat < 0xC000) : s.busRead addr = .ok 0xFF#8 := by
  rw [State.busRead_eq, s.bus.route_ramDenied h hlo hhi]
  rfl

/-- Denied cartridge RAM drops a write (20_memory.md R54). -/
theorem State.busWrite_ramDenied (s : State) (h : s.bus.cart.ramReady = false) {addr : Word} (hlo : 0xA000 ≤ addr.toNat)
    (hhi : addr.toNat < 0xC000) (v : Byte) : s.busWrite addr v = .ok s := by
  rw [State.busWrite_eq, Platform.write, s.bus.route_ramDenied h hlo hhi]

/-- An enabled access inside the RAM reaches the byte of the selected bank (20_memory.md R54). -/
theorem Platform.route_cartRam (p : Platform) (henabled : p.cart.ramEnabled = true) {addr : Word}
    (hlo : 0xA000 ≤ addr.toNat) (hhi : addr.toNat < 0xC000) {k : Nat} (hoffset : p.cart.ramOffset addr = k)
    (hk : k < p.cart.config.ramSize) : p.route addr = .cartRam k := by
  have present : p.cart.config.ramSize ≠ 0 := by omega
  have ready : p.cart.ramReady = true := by simp [Cartridge.ramReady, henabled, present]
  rw [Platform.route, regionOf_cartRam addr hlo hhi]
  simp only [Cartridge.ramRoute, ready, hoffset, hk, Bool.true_eq_false, if_false, if_true]

end Sys2Proof.Machine

namespace Sys2Proof.Proofs

open Sys2Proof.Machine

/-- Settles O36, by the two wired ranges of the bus's laws. -/
theorem accessesFaultExactlyWhenUnwired : Obligations.AccessesFaultExactlyWhenUnwired := fun s addr v =>
  ⟨fun hwired => ⟨s.busRead_wired addr hwired, s.busWrite_wired addr v hwired⟩,
    fun hunwired => ⟨s.busRead_unwired addr hunwired, s.busWrite_unwired addr v hunwired⟩⟩

/-- Settles O37: the invariant keeps both stores canonical, which is what reading back needs. -/
theorem plainRamHoldsTheLastByteWritten : Obligations.PlainRamHoldsTheLastByteWritten := by
  intro s addr v hinv hplain
  obtain ⟨t, written, -, read_back, others⟩ := s.busWrite_plainRam addr v hplain
  exact ⟨t, written, read_back hinv.vram_wf hinv.wram_wf, others⟩

/-- Settles O38: the offset of each half of the ROM range, and the bank of the upper one. -/
theorem romReadsTheSelectedBank : Obligations.RomReadsTheSelectedBank := by
  intro s addr
  refine ⟨fun hlow hsize => ?bankZero, fun hlow hhigh k hpos hzero hsize => ?selected⟩
  case bankZero =>
    rw [s.busRead_rom (by omega), Cartridge.romOffset_low _ hlow, Cartridge.romByte_of_lt _ hsize]
  case selected =>
    have bank : s.bus.cart.readBank = k := by
      rcases Nat.eq_zero_or_pos s.bus.cart.romBank with h0 | h1
      · rw [hzero h0, Cartridge.readBank_of_zero _ h0]
      · rw [hpos h1, Cartridge.readBank_of_pos _ h1]
    rw [s.busRead_rom hhigh, Cartridge.romOffset_high _ hlow, bank, Cartridge.romByte_of_lt _ hsize]

/-- Settles O39: the write is the control write of the window that holds the address. -/
theorem romRangeWritesAreControlWrites : Obligations.RomRangeWritesAreControlWrites := by
  intro s addr v hrom
  obtain ⟨t, ht⟩ : ∃ t : State, t = { s with bus := { s.bus with cart := s.bus.cart.writeRom addr v } } := ⟨_, rfl⟩
  have written : s.busWrite addr v = .ok t := (s.busWrite_rom addr v hrom).trans (congrArg _ ht.symm)
  have cart : t.bus.cart = s.bus.cart.writeRom addr v := by rw [ht]
  refine ⟨t, written, ?frame, fun hc => ?ramEnable, fun hc => ?romBank, fun hc => ?ramBank⟩
  case frame =>
    rw [cart, ← Cartridge.writeRom_eq]
    exact ht
  case ramEnable =>
    rw [Cartridge.writeRom_of_controlAt _ hc] at cart
    refine ⟨cart, fun hdisabled a hlo hhi => t.busRead_ramDenied ?_ hlo hhi⟩
    rw [cart]
    exact Cartridge.ramReady_eq_false _ (.inl (decide_eq_false hdisabled))
  case romBank =>
    rw [cart, Cartridge.writeRom_of_controlAt _ hc]
    exact ⟨rfl, fun h => s.bus.cart.romBankIndex_of_coerceBeforeMask h v,
      fun h => s.bus.cart.romBankIndex_of_maskBeforeCoerce h v⟩
  case ramBank =>
    rw [cart, Cartridge.writeRom_of_controlAt _ hc]
    exact ⟨rfl, s.bus.cart.ramBank_of_control v⟩

/-- Settles O40: no window is found, so the cartridge stays. -/
theorem unclaimedRomWritesChangeNothing : Obligations.UnclaimedRomWritesChangeNothing := by
  intro s addr v hrom hwindows
  rw [s.busWrite_rom addr v hrom, Cartridge.writeRom_of_unclaimed _ (Cartridge.controlAt_eq_none _ hwindows)]

/-- Settles O42: the route of the window is `ramDenied` or the byte of the selected bank. -/
theorem cartridgeRamFollowsItsEnable : Obligations.CartridgeRamFollowsItsEnable := by
  intro s addr v hlo hhi
  refine ⟨fun hdenied => ?denied, fun henabled k hoffset hk => ?enabled⟩
  case denied =>
    have ready := s.bus.cart.ramReady_eq_false hdenied
    exact ⟨s.busRead_ramDenied ready hlo hhi, s.busWrite_ramDenied ready hlo hhi v⟩
  case enabled =>
    have offset := (s.bus.cart.eq_ramOffset hoffset).symm
    have route := s.bus.route_cartRam henabled hlo hhi offset hk
    have written : s.busWrite addr v = .ok { s with bus := s.bus.store (.cartRam k) v } := by
      rw [State.busWrite_eq, Platform.write, route]
    refine ⟨?read, _, written, rfl, fun hinv => ?readBack, fun q hq => ?others⟩
    case read =>
      rw [State.busRead_eq, route]
      rfl
    case readBack =>
      have same_route := (s.bus.store (.cartRam k) v).route_cartRam henabled hlo hhi offset hk
      rw [State.busRead_eq, same_route]
      exact congrArg Except.ok (Memory.read_write_same _ _ _ hinv.ram_wf)
    case others => exact State.load_busWrite_ne written q (by rwa [route])

end Sys2Proof.Proofs
end

section
/-! PROOFS. Construction (70_reset_and_hazards.md section 1): what it refuses, what it loads, and that it meets the
invariant. -/

namespace Sys2Proof.Machine

variable {σ : Type}

theorem constructOn_of_length_lt (image : List Byte) (sp : Word) (bus : σ) (h : image.length < minImageLength) :
    constructOn image sp bus = .error (.shortImage image.length) :=
  if_pos h

/-- A construction that is not refused had an image of the least length (60_exceptions.md R219). -/
theorem construct_ok {b : BootInputs} {s : State} (h : construct b = .ok s) :
    minImageLength ≤ b.image.length ∧ s = (bootCore b.image b.spReset b.platform).toState := by
  rcases Nat.lt_or_ge b.image.length minImageLength with hlt | hle
  · rw [construct, constructOn_of_length_lt _ _ _ hlt] at h
    cases h
  · rw [construct_of_le_length b hle] at h
    cases h
    exact ⟨hle, rfl⟩

/-! ### What the stores hold -/

/-- A store loaded with the first bytes of a list, as many as it has addresses, holds each of them. -/
theorem Memory.read_ofBytes_take (base n : Nat) {bs : List Byte} {k : Nat} {v : Byte} (hk : k < n) (h : bs[k]? = some v) :
    Memory.read (Memory.ofBytes base (bs.take n)) (base + k) = v :=
  Memory.read_ofBytes _ _ _ _ ((List.getElem?_take_of_lt hk).trans h)

theorem Memory.within_ofBytes_take (base n : Nat) (bs : List Byte) :
    Memory.within base (base + n) (Memory.ofBytes base (bs.take n)) = true :=
  Memory.within_ofBytes _ _ _ _ le_rfl (Nat.add_le_add_left (List.length_take_le n bs) base)

theorem toNat_ofNat_add {base k n : Nat} (hk : k < n) (hn : base + n ≤ 65536) :
    (BitVec.ofNat 16 (base + k)).toNat = base + k := by
  rw [BitVec.toNat_ofNat, Nat.mod_eq_of_lt (by omega)]

theorem resetImage_length : BootInputs.reset.image.length = Params.romSize := List.length_replicate

/-- The image of the logged inputs holds zero bytes only (log entry 4). -/
theorem resetImage_getD (k : Nat) : BootInputs.reset.image.getD k 0#8 = 0#8 := by
  rw [BootInputs.reset, List.getD_eq_getElem?_getD, List.getElem?_replicate]
  split <;> rfl

theorem resetInputs_platform : BootInputs.reset.platform = State.reset.bus := by
  have image : Memory.ofBytes 0 BootInputs.reset.image = [] := Memory.ofBytes_replicate 0 Params.romSize
  rw [BootInputs.platform, image, resetImage_length]
  rfl

end Sys2Proof.Machine

namespace Sys2Proof.Proofs

open Sys2Proof.Machine

/-- Settles O44: each store is the list of its bytes from its first address on. -/
theorem constructionLoadsTheMemories : Obligations.ConstructionLoadsTheMemories := by
  intro b s h
  obtain ⟨-, rfl⟩ := construct_ok h
  refine ⟨rfl, fun k v hv => ?rom, fun k v hk hv => ?vram, fun k v hk hv => ?wram, fun k v hk hv => ?cartRam,
    rfl, rfl, rfl, rfl⟩
  case rom =>
    have inside : k < b.image.length := (List.getElem?_eq_some_iff.1 hv).1
    have loaded := Memory.read_ofBytes 0 b.image k v hv
    rw [Nat.zero_add] at loaded
    exact (Cartridge.romByte_of_lt b.platform.cart inside).trans loaded
  case vram =>
    have addr := toNat_ofNat_add hk (base := 0x8000) (by decide)
    rw [State.busRead_vram _ (by omega) (by omega), addr]
    exact congrArg Except.ok (Memory.read_ofBytes_take 0x8000 0x2000 hk hv)
  case wram =>
    have addr := toNat_ofNat_add hk (base := 0xC000) (by decide)
    rw [State.busRead_wram _ (by omega) (by omega), addr]
    exact congrArg Except.ok (Memory.read_ofBytes_take 0xC000 0x2000 hk hv)
  case cartRam =>
    have loaded := Memory.read_ofBytes_take 0 b.config.ramSize hk hv
    rwa [Nat.zero_add] at loaded

/-- Settles O29: a loaded store is canonical and within its addresses, and the ROM bank is 1. -/
theorem constructionMeetsTheInvariant : Obligations.ConstructionMeetsTheInvariant := by
  intro b s h
  obtain ⟨length, rfl⟩ := construct_ok h
  exact {
    vram_wf := Memory.wf_ofBytes _ _
    wram_wf := Memory.wf_ofBytes _ _
    rom_wf := Memory.wf_ofBytes _ _
    ram_wf := Memory.wf_ofBytes _ _
    vram_within := Memory.within_ofBytes_take 0x8000 0x2000 _
    wram_within := Memory.within_ofBytes_take 0xC000 0x2000 _
    rom_within := Memory.within_ofBytes 0 0 _ _ le_rfl (Nat.zero_add _).le
    ram_within := Memory.within_ofBytes 0 0 _ _ le_rfl ((Nat.zero_add _).trans_le (List.length_take_le _ _))
    image_length := length
    rom_bank_masked := .inl rfl
    rom_bank_one_based := fun _ => le_rfl }

/-- Settles O46: an image of zero bytes lists nothing and has checksum zero. -/
theorem resetIsTheLoggedConstruction : Obligations.ResetIsTheLoggedConstruction := by
  have length : minImageLength ≤ BootInputs.reset.image.length := by
    rw [resetImage_length]
    decide
  rw [Obligations.ResetIsTheLoggedConstruction, construct_of_le_length _ length, bootCore, resetImage_getD,
    resetInputs_platform]
  rfl

/-- Settles O28: the state right after reset is one construction gives. -/
theorem resetMeetsTheInvariant : Obligations.ResetMeetsTheInvariant :=
  constructionMeetsTheInvariant _ _ resetIsTheLoggedConstruction

/-- Settles O45: the refusal is construction's first branch. -/
theorem shortImagesAreRefused : Obligations.ShortImagesAreRefused := by
  intro b h
  rw [construct, constructOn_of_length_lt _ _ _ h]
  rfl

/-- Settles O53: the constructed core written out, its flags by the checksum byte. -/
theorem constructionSetsTheCoreOnEveryBus : Obligations.ConstructionSetsTheCoreOnEveryBus := fun _ image sp q =>
  ⟨constructOn_of_length_lt image sp q, fun hl => ⟨bootCore image sp q, constructOn_of_le_length image sp q hl, rfl,
    bootFlags_of_checksum_ne_zero image hl, bootFlags_of_checksum_zero image, rfl, rfl, rfl⟩⟩

end Sys2Proof.Proofs
end

section
/-! PROOFS. What a completed instruction may change of the core (10_state.md), on every bus: flags, byte registers, SP and
PC, told by the operation tag. -/

namespace Sys2Proof

/-! ### The tables of 10_state.md by operation tag -/

/-- The tags that write flags (10_state.md R17). -/
def Tag.writesFlags : Tag → Bool
  | .cpN | .xorR _ => true
  | _ => false

/-- The byte registers a tag's handler may write (10_state.md R11). -/
def Tag.writtenRegs : Tag → List RegSel
  | .xorR _ => [.a]
  | .ldRN r | .ldRRr r _ => [r]
  | .incRr .bc => [.b, .c]
  | .incRr .de => [.d, .e]
  | .incRr .hl => [.h, .l]
  | _ => []

/-- The tags that push (10_state.md R34). -/
def Tag.pushes : Tag → Bool
  | .rst _ => true
  | _ => false

/-- The tags that store (20_memory.md R42). -/
def Tag.stores : Tag → Bool
  | .stRrR _ _ => true
  | _ => false

/-- The tags that load (20_memory.md R42). -/
def Tag.loads : Tag → Bool
  | .ldRRr _ _ => true
  | _ => false

/-- PC after a tag's handler, from the PC and the flags the handler sees (10_state.md R25). -/
def Tag.pcAfter (n : Byte) (nn : Word) (f : Machine.Flags) (pc : Word) : Tag → Option Word
  | .jpNn => some nn
  | .jrCc cc => some (if f.holds cc then pc + Machine.sext16 n else pc)
  | .rst v => some v
  | .escape => none
  | _ => some pc

theorem Instr.tag_ne_incRr_af (i : Instr) : i.tag ≠ .incRr .af := by
  cases i <;> exact nofun

theorem Instr.tag_ne_stRrR_af (i : Instr) (r : RegSel) : i.tag ≠ .stRrR .af r := by
  cases i <;> exact nofun

theorem Instr.tag_ne_ldRRr_af (i : Instr) (r : RegSel) : i.tag ≠ .ldRRr r .af := by
  cases i <;> exact nofun

end Sys2Proof

namespace Sys2Proof.Proofs

open Sys2Proof.Machine Sys2Proof.Claims

theorem writesFlags_eq (i : Instr) : writesFlags i = i.tag.writesFlags := by
  cases i <;> rfl

theorem writtenRegs_eq (i : Instr) : writtenRegs i = i.tag.writtenRegs := by
  cases i <;> rfl

theorem isRestart_eq (i : Instr) : isRestart i = i.tag.pushes := by
  cases i <;> rfl

theorem isStore_eq (i : Instr) : isStore i = i.tag.stores := by
  cases i <;> rfl

theorem isLoad_eq (i : Instr) : isLoad i = i.tag.loads := by
  cases i <;> rfl

/-- The table of 10_state.md R25 starts from the opcode's address, the handler's PC is past the instruction's bytes. -/
theorem pcAfter_eq (i : Instr) (f : Flags) (a0 : Word) :
    pcAfter i f a0 = i.tag.pcAfter i.byteOperand i.wordOperand f (a0 + BitVec.ofNat 16 i.length) := by
  cases i with
  | jrNz e => exact congrArg some (if_congr (Bool.not_eq_true' f.z).symm.to_iff rfl rfl)
  | jrNc e => exact congrArg some (if_congr (Bool.not_eq_true' f.c).symm.to_iff rfl rfl)
  | _ => rfl

end Sys2Proof.Proofs

namespace Sys2Proof.Machine

variable {σ : Type}

/-! ### The handlers that access memory -/

/-- A restart that completes is two writes, the low byte first (40_jumps.md R106). -/
theorem restart_next_iff (bus : Bus σ) (v : Word) (m t : CoreOn σ) : restart bus v m = .next t ↔
    ∃ q1 q2, bus.write m.bus (m.sp - 2#16) (lo8 m.pc) = some q1 ∧
      bus.write q1 (m.sp - 2#16 + 1#16) (hi8 m.pc) = some q2 ∧ t = { m with pc := v, sp := m.sp - 2#16, bus := q2 } := by
  unfold restart
  constructor
  · intro h
    split at h
    · next hp =>
      obtain ⟨q1, q2, h1, h2, rfl⟩ := (CoreOn.push16_ok_iff _ _ _ _).1 hp
      cases h
      exact ⟨q1, q2, h1, h2, rfl⟩
    · cases h
  · rintro ⟨q1, q2, h1, h2, rfl⟩
    rw [(CoreOn.push16_ok_iff _ _ _ _).2 ⟨q1, q2, h1, h2, rfl⟩]
    rfl

theorem storeAtPair_next_iff (bus : Bus σ) (p : PairSel) (r : RegSel) (m t : CoreOn σ) :
    storeAtPair bus p r m = .next t ↔ ∃ q, bus.write m.bus (m.pair p) (m.reg r) = some q ∧ t = { m with bus := q } := by
  rw [← CoreOn.memWrite_ok_iff, storeAtPair]
  cases m.memWrite bus (m.pair p) (m.reg r) <;> simp [finish, raise]

theorem loadFromPair_next_iff (bus : Bus σ) (r : RegSel) (p : PairSel) (m t : CoreOn σ) :
    loadFromPair bus r p m = .next t ↔
      ∃ b q, bus.read m.bus (m.pair p) = some (b, q) ∧ t = CoreOn.setReg { m with bus := q } r b := by
  unfold loadFromPair CoreOn.withByteAt CoreOn.memRead
  cases bus.read m.bus (m.pair p) with
  | none => simp [raise]
  | some a => simp [Prod.ext_iff, eq_comm]

/-! ### The frame -/

/-- What a completed handler with operands `n` and `nn` may change of the core. -/
structure Frame (t : Tag) (n : Byte) (nn : Word) (m m' : CoreOn σ) : Prop where
  flags : t.writesFlags = false → m'.flags = m.flags
  regs : ∀ r, r ∉ t.writtenRegs → m'.reg r = m.reg r
  sp : m'.sp = if t.pushes then m.sp - 2#16 else m.sp
  pc : t.pcAfter n nn m.flags m.pc = some m'.pc

theorem CoreOn.reg_setReg_of_notMem (m : CoreOn σ) {r q : RegSel} (h : q ∉ [r]) (v : Byte) :
    (m.setReg r v).reg q = m.reg q := by
  rw [CoreOn.reg_setReg, if_neg (List.ne_of_not_mem_cons h)]

theorem CoreOn.reg_setPair_of_notMem (m : CoreOn σ) {p : PairSel} {hi lo r : RegSel}
    (halves : pairHalves p = some (hi, lo)) (h : r ∉ [hi, lo]) (w : Word) : (m.setPair p w).reg r = m.reg r :=
  m.reg_setPair_of_ne halves w (List.ne_of_not_mem_cons h)
    (List.ne_of_not_mem_cons (List.not_mem_of_not_mem_cons h))

/-- Every handler keeps to its row of the tables; INC AF, which is no instruction, would write the flags. -/
theorem execTag_frame (bus : Bus σ) {t : Tag} (ht : t ≠ .incRr .af) {n : Byte} {nn : Word} {m m' : CoreOn σ}
    (h : execTag bus t n nn m = .next m') : Frame t n nn m m' := by
  cases t with
  | nop | jpNn => cases h; exact ⟨fun _ => rfl, fun _ _ => rfl, rfl, rfl⟩
  | jrCc cc =>
    cases h
    split
    · next hc => exact ⟨fun _ => rfl, fun _ _ => rfl, rfl, congrArg some (if_pos hc)⟩
    · next hc => exact ⟨fun _ => rfl, fun _ _ => rfl, rfl, congrArg some (if_neg hc)⟩
  | cpN => cases h; exact ⟨nofun, fun _ _ => rfl, rfl, rfl⟩
  | incRr p =>
    cases h
    cases p with
    | af => exact absurd rfl ht
    | bc | de | hl => exact ⟨fun _ => rfl, fun _ hr => m.reg_setPair_of_notMem rfl hr _, rfl, rfl⟩
  | xorR r => cases h; exact ⟨nofun, fun _ hr => m.reg_setReg_of_notMem hr _, rfl, rfl⟩
  | rst v =>
    obtain ⟨q1, q2, -, -, rfl⟩ := (restart_next_iff _ _ _ _).1 h
    exact ⟨fun _ => rfl, fun _ _ => rfl, rfl, rfl⟩
  | stRrR p r =>
    obtain ⟨q, -, rfl⟩ := (storeAtPair_next_iff _ _ _ _ _).1 h
    exact ⟨fun _ => rfl, fun _ _ => rfl, rfl, rfl⟩
  | ldRRr r p =>
    obtain ⟨b, q, -, rfl⟩ := (loadFromPair_next_iff _ _ _ _ _).1 h
    refine ⟨fun _ => CoreOn.setReg_flags _ _ _, fun _ hr => CoreOn.reg_setReg_of_notMem _ hr _, CoreOn.setReg_sp _ _ _,
      congrArg some (CoreOn.setReg_pc { m with bus := q } r b).symm⟩
  | ldRN r =>
    cases h
    exact ⟨fun _ => m.setReg_flags _ _, fun _ hr => m.reg_setReg_of_notMem hr _, m.setReg_sp _ _,
      congrArg some (m.setReg_pc _ _).symm⟩
  | escape => cases h

theorem execOn_frame {bus : Bus σ} {i : Instr} {m t : CoreOn σ} (h : execOn bus i m = .next t) :
    Frame i.tag i.byteOperand i.wordOperand m t :=
  execTag_frame bus i.tag_ne_incRr_af h

theorem exec_frame {i : Instr} {s t : State} (h : exec i s = .next t) :
    Frame i.tag i.byteOperand i.wordOperand s.toCoreOn t.toCoreOn := by
  rw [exec_eq_onReference, onReference_next_iff] at h
  exact execOn_frame h

end Sys2Proof.Machine

namespace Sys2Proof.Proofs

open Sys2Proof.Machine Sys2Proof.Claims

/-- Settles O22, by the frame of the instruction's handler. -/
theorem onlyCompareAndXorChangeFlags : Obligations.OnlyCompareAndXorChangeFlags := by
  intro i s t h hf
  rw [writesFlags_eq] at hf
  exact (exec_frame h).flags hf

/-- Settles O23, by the frame of the instruction's handler. -/
theorem registersChangeOnlyAsTheTableLists : Obligations.RegistersChangeOnlyAsTheTableLists := by
  intro i s t h r hr
  rw [writtenRegs_eq] at hr
  exact (exec_frame h).regs r hr

theorem sp_of_exec {i : Instr} {s t : State} (h : exec i s = .next t) :
    t.sp = if isRestart i then s.sp - 2#16 else s.sp := by
  rw [isRestart_eq]
  exact (exec_frame h).sp

/-- PC after the step, where the handler's PC is the one past its bytes (10_state.md R25). -/
theorem pcAfter_of_exec_past {i : Instr} {s t : State} (h : exec i (s.past i) = .next t) :
    pcAfter i s.flags s.pc = some t.pc := by
  rw [pcAfter_eq]
  exact (exec_frame h).pc

/-- Settles O5: the step is the meaning with PC past the bytes, and its frame tells PC. -/
theorem pcAfterAStepFollowsTheTable : Obligations.PcAfterAStepFollowsTheTable := by
  intro s t i bs hd bytes h
  obtain rfl := eq_encode_of_decode hd
  rw [step_of_bytesAt bytes] at h
  exact pcAfter_of_exec_past h

/-- Settles O50: the fetch moves PC and the bus's state only, and the handler keeps to its frame. -/
theorem framesHoldOnEveryBus : Obligations.FramesHoldOnEveryBus := by
  intro σ bus i m m' t hfetch h
  rw [stepOn_of_fetchInstr hfetch] at h
  obtain ⟨q, rfl⟩ := CoreOn.fetchInstr_frame _ _ _ _ hfetch
  obtain ⟨flags, regs, sp, pc⟩ := execOn_frame h
  rw [writesFlags_eq, writtenRegs_eq, isRestart_eq, pcAfter_eq]
  exact ⟨flags, regs, sp, pc⟩

/-! ### The stack pointer -/

theorem fetchInstr_of_bytesAt {s : State} {i : Instr} (h : s.bytesAt s.pc (encode i)) :
    s.fetchInstr = .ok (i, s.past i) := by
  rw [State.fetchInstr, (s.fetchInstr_core_ok_iff _ _).2 ⟨h, rfl⟩]
  rfl

theorem restartsIn_succ {s t : State} {i : Instr} (bytes : s.bytesAt s.pc (encode i)) (h : step s = .next t) (k : Nat) :
    restartsIn (k + 1) s = (if isRestart i then 1 else 0) + restartsIn k t := by
  simp only [restartsIn, fetchInstr_of_bytesAt bytes, h]

/-- Over a run SP goes down by 2 for each restart (10_state.md R34). -/
theorem sp_of_run {k : Nat} {s t : State} (h : Sys2Proof.core.run k s = .next t) :
    t.sp = s.sp - BitVec.ofNat 16 (2 * restartsIn k s) := by
  induction k generalizing s with
  | zero =>
    cases h
    exact (BitVec.sub_zero _).symm
  | succ k ih =>
    rw [run_succ] at h
    cases hs : step s with
    | fault f => rw [hs] at h; cases h
    | refused r => rw [hs] at h; cases h
    | next s1 =>
      rw [hs] at h
      obtain ⟨i, bytes, hi⟩ := step_next hs
      have first : s1.sp = if isRestart i then s.sp - 2#16 else s.sp := sp_of_exec (s := s.past i) hi
      rw [ih h, first, restartsIn_succ bytes hs]
      cases isRestart i with
      | false => simp
      | true => simp [Nat.mul_add, BitVec.ofNat_add, sub_sub]

theorem sp_of_construct {b : BootInputs} {s : State} (h : construct b = .ok s) : s.sp = b.spReset := by
  obtain ⟨-, rfl⟩ := construct_ok h
  rfl

/-- Settles O25: the frame of one instruction, and an induction over the steps of the run. -/
theorem stackPointerCountsRestarts : Obligations.StackPointerCountsRestarts := by
  refine ⟨fun i s t => sp_of_exec, fun b s t k hb h => ?_⟩
  rw [← sp_of_construct hb]
  exact sp_of_run h

end Sys2Proof.Proofs
end

section
/-! PROOFS. The core on any bus: what an instruction hands to the bus (20_memory.md section 1), and the faults of a step
(60_exceptions.md). -/

namespace Sys2Proof.Machine

open Sys2Proof.Claims

variable {σ τ : Type}

/-! ### The memory handlers by what the bus answers -/

theorem execOn_store_next {bus : Bus σ} {i : Instr} {p : PairSel} {r : RegSel} (ht : i.tag = .stRrR p r) {m : CoreOn σ}
    {q : σ} (hw : bus.write m.bus (m.pair p) (m.reg r) = some q) : execOn bus i m = .next { m with bus := q } := by
  rw [execOn_of_tag _ _ _ _ ht]
  exact (storeAtPair_next_iff _ _ _ _ _).2 ⟨q, hw, rfl⟩

theorem execOn_store_fault {bus : Bus σ} {i : Instr} {p : PairSel} {r : RegSel} (ht : i.tag = .stRrR p r) {m : CoreOn σ}
    (hw : bus.write m.bus (m.pair p) (m.reg r) = none) : execOn bus i m = .fault (.addressing .write (m.pair p)) := by
  rw [execOn_of_tag _ _ _ _ ht, execTag, storeAtPair, (CoreOn.memWrite_error_iff _ _ _ _ _).2 ⟨hw, rfl⟩]
  rfl

theorem execOn_load_next {bus : Bus σ} {i : Instr} {r : RegSel} {p : PairSel} (ht : i.tag = .ldRRr r p) {m : CoreOn σ}
    {b : Byte} {q : σ} (hr : bus.read m.bus (m.pair p) = some (b, q)) :
    execOn bus i m = .next (CoreOn.setReg { m with bus := q } r b) := by
  rw [execOn_of_tag _ _ _ _ ht]
  exact (loadFromPair_next_iff _ _ _ _ _).2 ⟨b, q, hr, rfl⟩

theorem execOn_load_fault {bus : Bus σ} {i : Instr} {r : RegSel} {p : PairSel} (ht : i.tag = .ldRRr r p) {m : CoreOn σ}
    (hr : bus.read m.bus (m.pair p) = none) : execOn bus i m = .fault (.addressing .read (m.pair p)) := by
  rw [execOn_of_tag _ _ _ _ ht, execTag, loadFromPair, CoreOn.withByteAt, (CoreOn.memRead_error_iff _ _ _ _).2 ⟨hr, rfl⟩]
  rfl

theorem sub_two_add_one (w : Word) : w - 2#16 + 1#16 = w - 1#16 := by
  bv_omega

theorem execOn_rst_next {bus : Bus σ} {i : Instr} {v : Word} (ht : i.tag = .rst v) {m : CoreOn σ} {q1 q2 : σ}
    (hlo : bus.write m.bus (m.sp - 2#16) (lo8 m.pc) = some q1)
    (hhi : bus.write q1 (m.sp - 1#16) (hi8 m.pc) = some q2) :
    execOn bus i m = .next { m with pc := v, sp := m.sp - 2#16, bus := q2 } := by
  rw [← sub_two_add_one] at hhi
  rw [execOn_of_tag _ _ _ _ ht]
  exact (restart_next_iff _ _ _ _).2 ⟨q1, q2, hlo, hhi, rfl⟩

theorem execOn_rst_low_fault {bus : Bus σ} {i : Instr} {v : Word} (ht : i.tag = .rst v) {m : CoreOn σ}
    (hlo : bus.write m.bus (m.sp - 2#16) (lo8 m.pc) = none) :
    execOn bus i m = .fault (.addressing .write (m.sp - 2#16)) := by
  have push : m.push16 bus m.pc = .error (.addressing .write (m.sp - 2#16)) := by
    rw [CoreOn.push16, (CoreOn.memWrite_error_iff (m.setSp (m.sp - 2#16)) _ _ _ _).2 ⟨hlo, rfl⟩]
  rw [execOn_of_tag _ _ _ _ ht, execTag, restart, push]
  rfl

theorem execOn_rst_high_fault {bus : Bus σ} {i : Instr} {v : Word} (ht : i.tag = .rst v) {m : CoreOn σ} {q1 : σ}
    (hlo : bus.write m.bus (m.sp - 2#16) (lo8 m.pc) = some q1)
    (hhi : bus.write q1 (m.sp - 1#16) (hi8 m.pc) = none) :
    execOn bus i m = .fault (.addressing .write (m.sp - 1#16)) := by
  rw [← sub_two_add_one] at hhi ⊢
  have push : m.push16 bus m.pc = .error (.addressing .write (m.sp - 2#16 + 1#16)) := by
    rw [CoreOn.push16, (CoreOn.memWrite_ok_iff (m.setSp (m.sp - 2#16)) _ _ _ _).2 ⟨q1, hlo, rfl⟩]
    exact (CoreOn.memWrite_error_iff _ _ _ _ _).2 ⟨hhi, rfl⟩
  rw [execOn_of_tag _ _ _ _ ht, execTag, restart, push]
  rfl

/-! ### The core carried over to another bus -/

@[simp] theorem onto_bus (m : CoreOn σ) (q : τ) : (onto m q).bus = q := rfl
@[simp] theorem onto_reg (m : CoreOn σ) (q : τ) (r : RegSel) : (onto m q).reg r = m.reg r := by cases r <;> rfl
@[simp] theorem onto_pair (m : CoreOn σ) (q : τ) (p : PairSel) : (onto m q).pair p = m.pair p := by cases p <;> rfl

theorem onto_setReg (m : CoreOn σ) (q : τ) (r : RegSel) (v : Byte) :
    onto (m.setReg r v) q = (onto m q).setReg r v := by cases r <;> rfl

theorem onto_setPair (m : CoreOn σ) (q : τ) (p : PairSel) (w : Word) :
    onto (m.setPair p w) q = (onto m q).setPair p w := by cases p <;> rfl

/-- A handler that accesses no memory does the same on every bus (00_scope.md R4). -/
theorem execTag_onto {bus : Bus σ} (bus' : Bus τ) {t : Tag} (hl : t.loads = false) (hs : t.stores = false)
    (hp : t.pushes = false) {n : Byte} {nn : Word} {m m' : CoreOn σ} (q : τ) (h : execTag bus t n nn m = .next m') :
    execTag bus' t n nn (onto m q) = .next (onto m' q) := by
  cases t with
  | nop | jpNn | cpN => cases h; rfl
  | jrCc cc =>
    cases h
    change Host.Outcome.next (if m.flags.holds cc then _ else _) = _
    split <;> rfl
  | incRr p =>
    cases h
    rw [onto_setPair, execTag, incrementPair, onto_pair]
  | xorR r =>
    cases h
    rw [execTag, xorWithA, onto_reg, onto_reg]
    rfl
  | ldRN r =>
    cases h
    rw [onto_setReg]
    rfl
  | rst v => cases hp
  | stRrR p r => cases hs
  | ldRRr r p => cases hl
  | escape => cases h

theorem execTag_bus {bus : Bus σ} {t : Tag} (hl : t.loads = false) (hs : t.stores = false) (hp : t.pushes = false)
    {n : Byte} {nn : Word} {m m' : CoreOn σ} (h : execTag bus t n nn m = .next m') : m'.bus = m.bus := by
  have same := execTag_onto bus hl hs hp m.bus h
  rw [show onto m m.bus = m from rfl, h] at same
  rw [Host.Outcome.next.inj same, onto_bus]

/-! ### The opcode bytes the decoder does not answer -/

/-- Every byte outside the list of 30_encoding.md R79 is one of the 51 covered opcodes: all 256 looked up. -/
theorem decodePrimary_isSome_of_covered : ∀ op : Byte, op.toNat ∉ uncoveredOpcodes → (decodePrimary op).isSome = true := by
  decide

theorem uncovered_of_decodePrimary {op : Byte} (h : decodePrimary op = none) : op.toNat ∈ uncoveredOpcodes := by
  by_contra hc
  have covered := decodePrimary_isSome_of_covered op hc
  rw [h] at covered
  cases covered

/-- A fetched escape has found 0xCB and its extension byte, and PC is two past them (60_exceptions.md R202). -/
theorem CoreOn.fetches_escape {bus : Bus σ} {m m' : CoreOn σ} {x : Byte}
    (h : CoreOn.Fetches bus m (encode (.prefixX x)) m') :
    (∃ q q', bus.read m.bus m.pc = some (0xCB#8, q) ∧ bus.read q (m.pc + 1#16) = some (x, q')) ∧
      m'.pc - 2#16 = m.pc := by
  obtain ⟨m1, hop, m2, hx, rfl⟩ := h
  obtain ⟨q, hq, rfl⟩ := (CoreOn.fetch8_ok_iff _ _ _ _).1 hop
  obtain ⟨q', hq', rfl⟩ := (CoreOn.fetch8_ok_iff _ _ _ _).1 hx
  refine ⟨⟨q, q', hq, hq'⟩, ?_⟩
  change m.pc + 1#16 + 1#16 - 2#16 = m.pc
  bv_omega

/-- What a step does when it does not go on (60_exceptions.md R200, R217): it is never refused. -/
theorem stepOn_stop_cases (bus : Bus σ) (m : CoreOn σ) :
    (∃ t, stepOn bus m = .next t) ∨
    (∃ op q, bus.read m.bus m.pc = some (op, q) ∧ op.toNat ∈ uncoveredOpcodes ∧
      stepOn bus m = .fault (.decodePrimary op m.pc)) ∨
    (∃ x q q', bus.read m.bus m.pc = some (0xCB#8, q) ∧ bus.read q (m.pc + 1#16) = some (x, q') ∧
      stepOn bus m = .fault (.decodeExtended x m.pc)) ∨
    ∃ k q a, bus.Refuses k q a ∧ stepOn bus m = .fault (.addressing k a) := by
  rcases stepOn_cases bus m with ⟨f, hf, e⟩ | ⟨i, m', hi, e⟩
  · rcases CoreOn.fetchInstr_error hf with ⟨op, q, hop, hd, rfl⟩ | ⟨q, a, hr, rfl⟩
    · exact .inr (.inl ⟨op, q, hop, uncovered_of_decodePrimary hd, e⟩)
    · exact .inr (.inr (.inr ⟨.read, q, a, hr, e⟩))
  · rcases execOn_stop_cases bus i m' with ⟨t, h⟩ | ⟨ht, h⟩ | ⟨k, q, a, hr, h⟩ <;> rw [h] at e
    · exact .inl ⟨t, e⟩
    · cases i <;> cases ht
      next x =>
      obtain ⟨⟨q, q', hop, hx⟩, a0⟩ := CoreOn.fetches_escape (CoreOn.fetches_of_fetchInstr hi)
      rw [a0] at e
      exact .inr (.inr (.inl ⟨x, q, q', hop, hx, e⟩))
    · exact .inr (.inr (.inr ⟨k, q, a, hr, e⟩))

end Sys2Proof.Machine

namespace Sys2Proof.Proofs

open Sys2Proof.Machine Sys2Proof.Claims

theorem restartForms_row : ∀ f ∈ restartForms,
    decodePrimary f.1 = some (.whole f.2.1) ∧ f.2.1.tag = .rst f.2.2 := by
  simp only [restartForms, List.forall_mem_cons]
  exact ⟨⟨rfl, rfl⟩, ⟨rfl, rfl⟩, ⟨rfl, rfl⟩, ⟨rfl, rfl⟩, ⟨rfl, rfl⟩, ⟨rfl, rfl⟩, ⟨rfl, rfl⟩, ⟨rfl, rfl⟩,
    List.forall_mem_nil _⟩

/-- Settles O48: none of the handlers left looks at the bus. -/
theorem registerInstructionsIgnoreTheBus : Obligations.RegisterInstructionsIgnoreTheBus := by
  intro σ τ bus bus' i m t q hl hs hp h
  rw [isLoad_eq] at hl
  rw [isStore_eq] at hs
  rw [isRestart_eq] at hp
  exact ⟨execTag_bus hl hs hp h, execTag_onto bus' hl hs hp q h⟩

/-- Settles O49: each form by its tag, and each answer of the bus by the handler's rule for it. -/
theorem memoryInstructionsDoWhatTheBusDoes : Obligations.MemoryInstructionsDoWhatTheBusDoes := by
  intro σ bus m
  refine ⟨fun f hf => ?store, fun f hf => ?load, fun f hf => ?restart⟩
  case store =>
    obtain ⟨-, tag⟩ := storeForms_row f hf
    exact ⟨fun q => execOn_store_next tag, execOn_store_fault tag⟩
  case load =>
    obtain ⟨-, tag⟩ := loadForms_row f hf
    refine ⟨fun b q hr => ⟨_, execOn_load_next tag hr, ?loaded, fun r hne => ?others, ?frame⟩, execOn_load_fault tag⟩
    case loaded => rw [CoreOn.reg_setReg, if_pos rfl]
    case others =>
      rw [CoreOn.reg_setReg, if_neg hne]
      cases r <;> rfl
    case frame => exact CoreOn.setReg_eq _ _ _
  case restart =>
    obtain ⟨-, tag⟩ := restartForms_row f hf
    rw [← lo8_eq_ofNat, ← hi8_eq_ofNat]
    exact ⟨fun q1 q2 => execOn_rst_next tag, execOn_rst_low_fault tag, fun q1 => execOn_rst_high_fault tag⟩

/-- Settles O51: of the four ways a step can end, only the three faults are left. -/
theorem faultsHaveTheListedCausesOnEveryBus : Obligations.FaultsHaveTheListedCausesOnEveryBus := by
  intro σ bus m
  rcases stepOn_stop_cases bus m with ⟨t, e⟩ | ⟨op, q, hop, hu, e⟩ | ⟨x, q, q', hop, hx, e⟩ | ⟨k, q, a, hr, e⟩ <;>
    rw [e] <;> refine ⟨?_, nofun, nofun⟩ <;> rintro f ⟨⟩
  · exact .inl ⟨op, q, hop, hu, rfl⟩
  · exact .inr (.inl ⟨x, q, q', hop, hx, rfl⟩)
  · exact .inr (.inr ⟨k, q, a, hr, rfl⟩)

end Sys2Proof.Proofs
end

section
/-! PROOFS. The accesses of a step on any bus, in their order (20_memory.md section 1): the step on a bus that records. -/

namespace Sys2Proof.Machine

open Sys2Proof.Claims

variable {σ : Type}

/-! ### The table of accesses by operation tag -/

/-- The accesses of a tag's handler, from the core it sees. -/
def accesses (m : CoreOn σ) : Tag → List Event
  | .ldRRr _ p => [.read (m.pair p)]
  | .stRrR p r => [.write (m.pair p) (m.reg r)]
  | .rst _ => [.write (m.sp - 2#16) (lo8 m.pc), .write (m.sp - 1#16) (hi8 m.pc)]
  | _ => []

/-- The reads that fetch `k` bytes. -/
def fetchReads (pc : Word) (k : Nat) : List Event := (List.range k).map fun j => .read (pc + BitVec.ofNat 16 j)

theorem fetchReads_succ (pc : Word) (k : Nat) : fetchReads pc (k + 1) = .read pc :: fetchReads (pc + 1#16) k := by
  have shift (j : Nat) : pc + BitVec.ofNat 16 (j + 1) = pc + 1#16 + BitVec.ofNat 16 j := by
    rw [Nat.add_comm, BitVec.ofNat_add, BitVec.add_assoc]
  rw [fetchReads, List.range_succ_eq_map, List.map_cons, List.map_map, BitVec.add_zero]
  exact congrArg (Event.read pc :: ·) (List.map_congr_left fun j _ => congrArg Event.read (shift j))

theorem accesses_setBus (m : CoreOn σ) (q : σ) (t : Tag) : accesses { m with bus := q } t = accesses m t := by
  cases t with
  | ldRRr r p => exact congrArg (fun w => [Event.read w]) (onto_pair m q p)
  | stRrR p r => exact congrArg₂ (fun w v => [Event.write w v]) (onto_pair m q p) (onto_reg m q r)
  | _ => rfl

/-- The table is the fetch and then what the handler, whose PC is past the instruction, accesses. -/
theorem tableAccesses_eq (i : Instr) (m : CoreOn σ) : tableAccesses i m =
    fetchReads m.pc i.length ++ accesses (m.setPc (m.pc + BitVec.ofNat 16 i.length)) i.tag := by
  rw [tableAccesses, List.append_assoc, List.append_assoc]
  refine congrArg (fetchReads m.pc i.length ++ ·) ?_
  rw [← lo8_eq_ofNat, ← hi8_eq_ofNat]
  cases i <;> rfl

/-! ### The recording bus -/

theorem recording_read {bus : Bus σ} {q q' : σ} {a : Word} {b : Byte} (h : bus.read q a = some (b, q'))
    (log : List Event) : (recording bus).read (q, log) a = some (b, (q', log ++ [.read a])) := by
  simp only [recording, h, Option.map_some]

theorem recording_write {bus : Bus σ} {q q' : σ} {a : Word} {v : Byte} (h : bus.write q a v = some q')
    (log : List Event) : (recording bus).write (q, log) a v = some (q', log ++ [.write a v]) := by
  simp only [recording, h, Option.map_some]

/-- The core on the recording bus. -/
def CoreOn.withLog (m : CoreOn σ) (log : List Event) : CoreOn (σ × List Event) := onto m (m.bus, log)

theorem CoreOn.fetches_recording {bus : Bus σ} {m m' : CoreOn σ} {bs : List Byte} (h : CoreOn.Fetches bus m bs m')
    (log : List Event) :
    CoreOn.Fetches (recording bus) (m.withLog log) bs (m'.withLog (log ++ fetchReads m.pc bs.length)) := by
  induction bs generalizing m log with
  | nil =>
    cases h
    exact congrArg (CoreOn.withLog _) (List.append_nil log)
  | cons b bs ih =>
    obtain ⟨m1, hb, hbs⟩ := h
    obtain ⟨q, hq, rfl⟩ := (CoreOn.fetch8_ok_iff _ _ _ _).1 hb
    have rest := ih hbs (log ++ [.read m.pc])
    rw [List.append_assoc, List.singleton_append, ← fetchReads_succ] at rest
    exact ⟨_, (CoreOn.fetch8_ok_iff _ _ _ _).2 ⟨_, recording_read hq log, rfl⟩, rest⟩

theorem execTag_recording {bus : Bus σ} {t : Tag} {n : Byte} {nn : Word} {m m' : CoreOn σ}
    (h : execTag bus t n nn m = .next m') (log : List Event) :
    execTag (recording bus) t n nn (m.withLog log) = .next (m'.withLog (log ++ accesses m t)) := by
  cases t with
  | ldRRr r p =>
    obtain ⟨b, q, hr, rfl⟩ := (loadFromPair_next_iff _ _ _ _ _).1 h
    refine (loadFromPair_next_iff _ _ _ _ _).2 ⟨b, (q, log ++ [.read (m.pair p)]), ?_, ?_⟩
    · rw [CoreOn.withLog, onto_pair]
      exact recording_read hr log
    · rw [CoreOn.withLog, onto_setReg, CoreOn.setReg_bus]
      rfl
  | stRrR p r =>
    obtain ⟨q, hw, rfl⟩ := (storeAtPair_next_iff _ _ _ _ _).1 h
    refine (storeAtPair_next_iff _ _ _ _ _).2 ⟨(q, log ++ [.write (m.pair p) (m.reg r)]), ?_, rfl⟩
    rw [CoreOn.withLog, onto_pair, onto_reg]
    exact recording_write hw log
  | rst v =>
    obtain ⟨q1, q2, hlo, hhi, rfl⟩ := (restart_next_iff _ _ _ _).1 h
    refine (restart_next_iff _ _ _ _).2 ⟨_, _, recording_write hlo log, recording_write hhi _, ?_⟩
    rw [List.append_assoc, List.singleton_append, sub_two_add_one]
    rfl
  | _ =>
    refine (execTag_onto _ rfl rfl rfl (m.bus, log) h).trans ?_
    rw [CoreOn.withLog, execTag_bus rfl rfl rfl h]
    exact congrArg (fun l => Host.Outcome.next (onto m' (m.bus, l))) (List.append_nil log).symm

end Sys2Proof.Machine

namespace Sys2Proof.Proofs

open Sys2Proof.Machine Sys2Proof.Claims

/-- Settles O52: the record of the fetch, and after it the record of the handler. -/
theorem accessesFollowTheTableOnEveryBus : Obligations.AccessesFollowTheTableOnEveryBus := by
  intro σ bus i m m' t hfetch h
  rw [stepOn_of_fetchInstr hfetch] at h
  have fetch_recorded := CoreOn.fetches_recording (CoreOn.fetches_of_fetchInstr hfetch) []
  rw [List.nil_append, encode_length] at fetch_recorded
  have handler_recorded := execTag_recording h (fetchReads m.pc i.length)
  obtain ⟨q, rfl⟩ := CoreOn.fetchInstr_frame _ _ _ _ hfetch
  have handler_accesses := accesses_setBus (m.setPc (m.pc + BitVec.ofNat 16 i.length)) q i.tag
  rw [tableAccesses_eq, ← handler_accesses]
  exact (stepOn_of_fetchInstr (CoreOn.fetchInstr_of_fetches fetch_recorded)).trans handler_recorded

end Sys2Proof.Proofs
end

section
/-! PROOFS. The flags N and H influence nothing but themselves (10_state.md R17). -/

namespace Sys2Proof.Machine

open Sys2Proof.Claims

variable {σ : Type}

/-! ### Accesses and fetches look at no flag -/

theorem CoreOn.memRead_setFlags (m : CoreOn σ) (bus : Bus σ) (addr : Word) (g : Flags) :
    (m.setFlags g).memRead bus addr = (m.memRead bus addr).map fun r => (r.1, r.2.setFlags g) := by
  rw [CoreOn.memRead, CoreOn.memRead, CoreOn.setFlags_bus]
  cases bus.read m.bus addr <;> rfl

theorem CoreOn.memWrite_setFlags (m : CoreOn σ) (bus : Bus σ) (addr : Word) (v : Byte) (g : Flags) :
    (m.setFlags g).memWrite bus addr v = (m.memWrite bus addr v).map (·.setFlags g) := by
  rw [CoreOn.memWrite, CoreOn.memWrite, CoreOn.setFlags_bus]
  cases bus.write m.bus addr v <;> rfl

theorem CoreOn.push16_setFlags (m : CoreOn σ) (bus : Bus σ) (w : Word) (g : Flags) :
    (m.setFlags g).push16 bus w = (m.push16 bus w).map (·.setFlags g) := by
  simp only [CoreOn.push16, CoreOn.memWrite, CoreOn.setSp_bus, CoreOn.setFlags_bus, CoreOn.setFlags_sp]
  cases bus.write m.bus (m.sp - 2#16) (lo8 w) with
  | none => rfl
  | some q =>
    dsimp only
    cases bus.write q (m.sp - 2#16 + 1#16) (hi8 w) <;> rfl

theorem CoreOn.fetch8_setFlags (m : CoreOn σ) (bus : Bus σ) (g : Flags) :
    (m.setFlags g).fetch8 bus = (m.fetch8 bus).map fun r => (r.1, r.2.setFlags g) :=
  CoreOn.memRead_setFlags m.pcNext.2 bus m.pc g

theorem CoreOn.fetch16_setFlags (m : CoreOn σ) (bus : Bus σ) (g : Flags) :
    (m.setFlags g).fetch16 bus = (m.fetch16 bus).map fun r => (r.1, r.2.setFlags g) := by
  rw [CoreOn.fetch16, CoreOn.fetch16, CoreOn.fetch8_setFlags]
  cases m.fetch8 bus with
  | error f => rfl
  | ok r =>
    simp only [Except.map, CoreOn.fetch8_setFlags]
    cases r.2.fetch8 bus <;> rfl

theorem CoreOn.fetchInstr_setFlags (m : CoreOn σ) (bus : Bus σ) (g : Flags) :
    (m.setFlags g).fetchInstr bus = (m.fetchInstr bus).map fun r => (r.1, r.2.setFlags g) := by
  rw [CoreOn.fetchInstr, CoreOn.fetchInstr, CoreOn.fetch8_setFlags]
  cases m.fetch8 bus with
  | error f => rfl
  | ok r =>
    simp only [Except.map, CoreOn.fetch8_setFlags, CoreOn.fetch16_setFlags]
    cases decodePrimary r.1 with
    | none => rfl
    | some p =>
      cases p with
      | whole i => rfl
      | needsByte k => cases r.2.fetch8 bus <;> rfl
      | needsWord k => cases r.2.fetch16 bus <;> rfl

/-! ### The handlers -/

/-- Two outcomes of the core that differ at most in the flags N and H of the next state. -/
def CoreOutcomesSameButNH : OutcomeOn σ → OutcomeOn σ → Prop
  | .next m, .next m' => ∃ g : Flags, g.z = m.flags.z ∧ g.c = m.flags.c ∧ m' = m.setFlags g
  | .fault f, .fault g => f = g
  | .refused r, .refused q => r = q
  | _, _ => False

theorem Flags.holds_congr {f g : Flags} (hz : g.z = f.z) (hc : g.c = f.c) (cc : Cond) : g.holds cc = f.holds cc := by
  cases cc <;> simp only [Flags.holds, hz, hc]

theorem CoreOn.pair_setFlags (m : CoreOn σ) (g : Flags) {p : PairSel} (h : p ≠ .af) :
    (m.setFlags g).pair p = m.pair p := by
  cases p with
  | af => exact absurd rfl h
  | bc | de | hl => rfl

theorem CoreOn.setReg_setFlags (m : CoreOn σ) (g : Flags) (r : RegSel) (v : Byte) :
    (m.setFlags g).setReg r v = (m.setReg r v).setFlags g := by
  cases r <;> rfl

/-- A conditional jump reads Z or C, CP and XOR overwrite all four flags, and the others keep them; AF, whose view would
read them, is in no instruction. -/
theorem execTag_sameButNH (bus : Bus σ) {t : Tag} (hinc : t ≠ .incRr .af) (hst : ∀ r, t ≠ .stRrR .af r)
    (hld : ∀ r, t ≠ .ldRRr r .af) (n : Byte) (nn : Word) (m : CoreOn σ) {g : Flags} (hz : g.z = m.flags.z)
    (hc : g.c = m.flags.c) :
    CoreOutcomesSameButNH (execTag bus t n nn m) (execTag bus t n nn (m.setFlags g)) := by
  cases t with
  | nop | jpNn => exact ⟨g, hz, hc, rfl⟩
  | jrCc cc =>
    rw [execTag, execTag, jumpRelative, jumpRelative, CoreOn.setFlags_flags, Flags.holds_congr hz hc]
    split <;> exact ⟨g, hz, hc, rfl⟩
  | cpN => exact ⟨_, rfl, rfl, by rw [CoreOn.reg_setFlags]; rfl⟩
  | xorR r => exact ⟨_, rfl, rfl, by rw [CoreOn.reg_setFlags, CoreOn.reg_setFlags]; rfl⟩
  | incRr p =>
    cases p with
    | af => exact absurd rfl hinc
    | bc | de | hl => exact ⟨g, hz, hc, rfl⟩
  | ldRN r => exact ⟨g, by rwa [CoreOn.setReg_flags], by rwa [CoreOn.setReg_flags], m.setReg_setFlags g r n⟩
  | escape => exact rfl
  | stRrR p r =>
    have hp : p ≠ .af := fun e => hst r (e ▸ rfl)
    rw [execTag, execTag, storeAtPair, storeAtPair, CoreOn.pair_setFlags _ _ hp, CoreOn.reg_setFlags,
      CoreOn.memWrite_setFlags]
    cases h : m.memWrite bus (m.pair p) (m.reg r) with
    | error f => exact rfl
    | ok m1 =>
      obtain ⟨q, -, rfl⟩ := (CoreOn.memWrite_ok_iff _ _ _ _ _).1 h
      exact ⟨g, hz, hc, rfl⟩
  | ldRRr r p =>
    have hp : p ≠ .af := fun e => hld r (e ▸ rfl)
    rw [execTag, execTag, loadFromPair, loadFromPair, CoreOn.withByteAt, CoreOn.withByteAt, CoreOn.pair_setFlags _ _ hp,
      CoreOn.memRead_setFlags]
    cases h : m.memRead bus (m.pair p) with
    | error f => exact rfl
    | ok a =>
      obtain ⟨b, m1⟩ := a
      obtain ⟨q, -, rfl⟩ := (CoreOn.memRead_ok_iff _ _ _ _ _).1 h
      exact ⟨g, by rwa [CoreOn.setReg_flags], by rwa [CoreOn.setReg_flags], CoreOn.setReg_setFlags _ g r b⟩
  | rst v =>
    rw [execTag, execTag, restart, restart, CoreOn.setFlags_pc, CoreOn.push16_setFlags]
    cases h : m.push16 bus m.pc with
    | error f => exact rfl
    | ok m1 =>
      obtain ⟨q1, q2, -, -, rfl⟩ := (CoreOn.push16_ok_iff _ _ _ _).1 h
      exact ⟨g, hz, hc, rfl⟩

theorem stepOn_sameButNH (bus : Bus σ) (m : CoreOn σ) {g : Flags} (hz : g.z = m.flags.z) (hc : g.c = m.flags.c) :
    CoreOutcomesSameButNH (stepOn bus m) (stepOn bus (m.setFlags g)) := by
  rw [stepOn, stepOn, CoreOn.fetchInstr_setFlags]
  cases h : m.fetchInstr bus with
  | error f => exact rfl
  | ok r =>
    obtain ⟨i, m1⟩ := r
    obtain ⟨q, rfl⟩ := CoreOn.fetchInstr_frame _ _ _ _ h
    exact execTag_sameButNH bus i.tag_ne_incRr_af i.tag_ne_stRrR_af i.tag_ne_ldRRr_af _ _ _ hz hc

/-- The machine's outcomes are related as the core's on the reference bus. -/
theorem outcomesSameButNH_of_core {f : CoreOn Platform → OutcomeOn Platform} {s t : State}
    (h : CoreOutcomesSameButNH (f s.toCoreOn) (f t.toCoreOn)) :
    OutcomesSameButNH (onReference f s) (onReference f t) := by
  unfold onReference
  cases hs : f s.toCoreOn <;> cases ht : f t.toCoreOn <;> rw [hs, ht] at h
  case next.next m m' =>
    obtain ⟨⟨z, n, hf, c⟩, hz, hc, rfl⟩ := h
    obtain rfl : z = m.flags.z := hz
    obtain rfl : c = m.flags.c := hc
    rfl
  all_goals exact h

end Sys2Proof.Machine

namespace Sys2Proof.Proofs

open Sys2Proof.Machine Sys2Proof.Claims

/-- Settles O30: the second state is the first with other N and H, and a step keeps them so related. -/
theorem subtractAndHalfCarryInfluenceNothing : Obligations.SubtractAndHalfCarryInfluenceNothing := by
  intro s t h
  have hz : t.flags.z = s.flags.z := by rw [h]
  have hc : t.flags.c = s.flags.c := by rw [h]
  have ht : t.toCoreOn = s.setFlags t.flags := by rw [h]; rfl
  rw [stepIsTheCoreOnTheReferenceBus, stepIsTheCoreOnTheReferenceBus]
  apply outcomesSameButNH_of_core
  rw [ht]
  exact stepOn_sameButNH _ _ hz hc

end Sys2Proof.Proofs
end

section
/-! PROOFS. Single instructions of the machine and the operations they share: NOP and the escape (43_nop_prefix.md), JR cc,e
(40_jumps.md), the flags' order and the program counter (10_state.md). -/

namespace Sys2Proof.Machine

theorem exec_nop (s : State) : exec .nop s = .next s := rfl

theorem decodePrimary_nop : decodePrimary 0x00#8 = some (.whole .nop) := rfl

theorem decodePrimary_prefixX : decodePrimary 0xCB#8 = some (.needsByte .prefixX) := rfl

theorem exec_prefixX (x : Byte) (s : State) : exec (.prefixX x) s = .fault (.decodeExtended x (s.pc - 2#16)) := rfl

theorem exec_jr {i : Instr} {cc : Cond} (h : i.tag = .jrCc cc) (s : State) :
    exec i s = .next (if s.flags.holds cc then (s.pcRel i.byteOperand).toState else s) := by
  rw [exec_eq_onReference, onReference, execOn_of_tag _ _ _ _ h, execTag, jumpRelative]
  cases s.flags.holds cc <;> rfl

end Sys2Proof.Machine

namespace Sys2Proof.Proofs

open Sys2Proof.Machine Sys2Proof.Claims

/-- Settles O9: the opcode is whole, and its handler is the identity. -/
theorem nopOnlyAdvancesThePc : Obligations.NopOnlyAdvancesThePc :=
  ⟨decode_of_whole decodePrimary_nop, exec_nop⟩

/-- Settles O10: the step over the two bytes leaves PC two past the escape, and the fault names two less. -/
theorem escapeFaultsForEveryExtensionByte : Obligations.EscapeFaultsForEveryExtensionByte := by
  refine ⟨decode_of_needsByte decodePrimary_prefixX, exec_prefixX, fun x s bytes => ?step,
    operandFetchFaults_of_decodePrimary decodePrimary_prefixX fun _ => Pending.noConfusion⟩
  case step =>
    have a0 : (s.past (.prefixX x)).pc - 2#16 = s.pc := BitVec.add_sub_cancel _ _
    rw [step_of_bytesAt (i := .prefixX x) bytes, exec_prefixX, a0]

theorem jumpForms_row : ∀ f ∈ jumpForms, decodePrimary f.1 = some (.needsByte f.2.1) ∧
    ∃ cc, (∀ e, (f.2.1 e).tag = .jrCc cc ∧ (f.2.1 e).byteOperand = e) ∧ ∀ g : Flags, f.2.2 g = g.holds cc := by
  simp only [jumpForms, List.forall_mem_cons]
  exact ⟨⟨rfl, .nz, fun _ => ⟨rfl, rfl⟩, fun g => beq_false g.z⟩,
    ⟨rfl, .z, fun _ => ⟨rfl, rfl⟩, fun g => beq_true g.z⟩,
    ⟨rfl, .nc, fun _ => ⟨rfl, rfl⟩, fun g => beq_false g.c⟩,
    ⟨rfl, .c, fun _ => ⟨rfl, rfl⟩, fun g => beq_true g.c⟩, List.forall_mem_nil _⟩

/-- Settles O12: the form's test is its condition, and the sum is one of whole numbers modulo 65536. -/
theorem conditionalJumpAddsTheSignedDisplacement : Obligations.ConditionalJumpAddsTheSignedDisplacement := by
  intro f hf
  obtain ⟨decodes, cc, form, test⟩ := jumpForms_row f hf
  refine ⟨decode_of_needsByte decodes, operandFetchFaults_of_decodePrimary decodes fun _ => Pending.noConfusion,
    fun e s => ?completes⟩
  case completes =>
    obtain ⟨tag, operand⟩ := form e
    have goes_on := exec_jr tag s
    rw [operand] at goes_on
    refine ⟨_, goes_on, ?_⟩
    rw [test]
    cases s.flags.holds cc with
    | true => exact ⟨rfl, fun _ => toNat_add_sext16 _ _, nofun⟩
    | false => exact ⟨rfl, nofun, fun _ => rfl⟩

/-- Settles O33: packing over the sixteen flag settings; unpacking is those bits by definition. -/
theorem flagsTakeTheHighNibbleInOrder : Obligations.FlagsTakeTheHighNibbleInOrder := by
  refine ⟨fun f => ?_, fun b => rfl⟩
  obtain ⟨z, n, h, c⟩ := f
  cases z <;> cases n <;> cases h <;> cases c <;> rfl

/-- Settles O35: both are sums of words, as numbers modulo 65536. -/
theorem programCounterWraps : Obligations.ProgramCounterWraps :=
  ⟨fun _ => ⟨rfl, rfl, BitVec.toNat_add _ _⟩, fun _ _ => ⟨rfl, toNat_add_sext16 _ _⟩⟩

end Sys2Proof.Proofs
end

section
/-! PROOFS. What a step of the machine can do: the faults it can end in (60_exceptions.md), and what it keeps of memory and of
the invariant (20_memory.md), told by what a bus write keeps. -/

namespace Sys2Proof.Machine

open Sys2Proof.Claims

/-! ### The fault addresses of the reference platform -/

theorem State.busRead_of_reference {s : State} {addr : Word} {b : Byte} {q : Platform}
    (h : referenceBus.read s.bus addr = some (b, q)) : s.busRead addr = .ok b ∧ q = s.bus := by
  rw [referenceBus_read] at h
  cases hl : s.bus.load (s.bus.route addr) <;> rw [hl] at h <;> cases h
  exact ⟨by rw [State.busRead_eq, hl], rfl⟩

theorem Platform.write_eq_none_iff (p : Platform) (addr : Word) (v : Byte) :
    p.write addr v = none ↔ 0xE000 ≤ addr.toNat := by
  constructor
  · intro h
    by_contra hwired
    obtain ⟨t, ht⟩ := State.busWrite_wired { State.reset with bus := p } addr v (by omega)
    rw [State.busWrite_eq, h] at ht
    cases ht
  · intro h
    rw [Platform.write, (p.route_eq_unwired_iff addr).2 h]

/-- The reference bus refuses unwired addresses only (20_memory.md R47). -/
theorem unwired_of_refuses {k : Access} {p : Platform} {addr : Word} (h : referenceBus.Refuses k p addr) :
    0xE000 ≤ addr.toNat := by
  cases k with
  | read =>
    have no_byte : p.load (p.route addr) = none := Option.map_eq_none_iff.1 h
    exact (p.route_eq_unwired_iff addr).1 ((p.load_eq_none_iff _).1 no_byte)
  | write =>
    obtain ⟨v, hv⟩ := h
    exact (p.write_eq_none_iff addr v).1 hv

/-- What a step of the machine does when it does not go on: the core's faults, with the reference bus's answers as the
machine's reads. -/
theorem step_stop_cases (s : State) :
    (∃ t, step s = .next t) ∨
    (∃ op, s.busRead s.pc = .ok op ∧ op.toNat ∈ uncoveredOpcodes ∧ step s = .fault (.decodePrimary op s.pc)) ∨
    (∃ x, s.bytesAt s.pc [0xCB#8, x] ∧ step s = .fault (.decodeExtended x s.pc)) ∨
    ∃ (k : Access) (a : Word), 0xE000 ≤ a.toNat ∧ step s = .fault (.addressing k a) := by
  rw [Proofs.stepIsTheCoreOnTheReferenceBus, onReference]
  rcases stepOn_stop_cases referenceBus s.toCoreOn with
    ⟨t, e⟩ | ⟨op, q, hop, hu, e⟩ | ⟨x, q, q', hop, hx, e⟩ | ⟨k, q, a, hr, e⟩ <;> rw [e]
  · exact .inl ⟨_, rfl⟩
  · exact .inr (.inl ⟨op, (State.busRead_of_reference hop).1, hu, rfl⟩)
  · obtain ⟨hcb, rfl⟩ := State.busRead_of_reference hop
    exact .inr (.inr (.inl ⟨x, ⟨hcb, (State.busRead_of_reference hx).1, trivial⟩, rfl⟩))
  · exact .inr (.inr (.inr ⟨k, a, unwired_of_refuses hr, rfl⟩))

/-! ### What bus writes keep, every step keeps -/

section Kept

variable {P : State → Prop} (core : ∀ s t : State, t.bus = s.bus → P s → P t)
  (write : ∀ (s t : State) (addr : Word) (v : Byte), s.busWrite addr v = .ok t → P s → P t)

include core write

theorem kept_by_exec {i : Instr} {s t : State} (h : exec i s = .next t) (hs : P s) : P t := by
  rcases exec_next_cases i s t h with ⟨e, -, -⟩ | ⟨p, r, -, hw⟩ | ⟨v, m, -, hp, rfl⟩
  · exact core s t (by rw [e]) hs
  · exact write s t _ _ hw hs
  · obtain ⟨s1, hlo, hhi⟩ := s.push16_ok m _ hp
    have low := write _ s1 _ _ hlo (core s _ rfl hs)
    exact core m.toState _ rfl (write s1 _ _ _ hhi low)

/-- A step is a fetch, which on the reference bus changes PC only, and a meaning. -/
theorem kept_by_step {s t : State} (h : step s = .next t) (hs : P s) : P t := by
  obtain ⟨i, -, hi⟩ := step_next h
  exact kept_by_exec core write hi (core s _ rfl hs)

end Kept

/-! ### The invariant -/

theorem State.Inv.of_bus_eq {s t : State} (h : t.bus = s.bus) (hs : s.Inv) : t.Inv where
  vram_wf := h ▸ hs.vram_wf
  wram_wf := h ▸ hs.wram_wf
  rom_wf := h ▸ hs.rom_wf
  ram_wf := h ▸ hs.ram_wf
  vram_within := h ▸ hs.vram_within
  wram_within := h ▸ hs.wram_within
  rom_within := h ▸ hs.rom_within
  ram_within := h ▸ hs.ram_within
  image_length := h ▸ hs.image_length
  rom_bank_masked := h ▸ hs.rom_bank_masked
  rom_bank_one_based := h ▸ hs.rom_bank_one_based

theorem Cartridge.romBankIndex_masked (c : Cartridge) (v : Byte) :
    c.romBankIndex v = 1 ∨ c.romBankIndex v < 2 ^ c.config.romBankBits := by
  have below (n : Nat) : n % 2 ^ c.config.romBankBits < 2 ^ c.config.romBankBits := Nat.mod_lt _ (Nat.two_pow_pos _)
  cases h : c.config.coerceBeforeMask with
  | true => exact .inr (by rw [c.romBankIndex_of_coerceBeforeMask h]; exact below _)
  | false =>
    rw [c.romBankIndex_of_maskBeforeCoerce h]
    split
    · exact .inl rfl
    · exact .inr (below _)

theorem Cartridge.one_le_romBankIndex (c : Cartridge) (h : c.config.coerceBeforeMask = false) (v : Byte) :
    1 ≤ c.romBankIndex v := by
  rw [c.romBankIndex_of_maskBeforeCoerce h]
  split <;> omega

/-- A control write leaves the ROM bank index or sets it to one the select can give (20_memory.md R53). -/
theorem Cartridge.writeRom_romBank (c : Cartridge) (addr : Word) (v : Byte) :
    (c.writeRom addr v).romBank = c.romBank ∨ (c.writeRom addr v).romBank = c.romBankIndex v := by
  unfold Cartridge.writeRom
  split
  · next k _ =>
    cases k with
    | ramEnable | ramBank => exact .inl rfl
    | romBank => exact .inr rfl
  · exact .inl rfl

theorem State.Inv.writeRom {s : State} (hs : s.Inv) (addr : Word) (v : Byte) :
    State.Inv { s with bus := { s.bus with cart := s.bus.cart.writeRom addr v } } := by
  rw [Cartridge.writeRom_eq]
  refine { hs with rom_bank_masked := ?masked, rom_bank_one_based := fun hc => ?oneBased }
  case masked =>
    rcases s.bus.cart.writeRom_romBank addr v with h | h
    · exact h ▸ hs.rom_bank_masked
    · exact h ▸ s.bus.cart.romBankIndex_masked v
  case oneBased =>
    rcases s.bus.cart.writeRom_romBank addr v with h | h
    · exact h ▸ hs.rom_bank_one_based hc
    · exact h ▸ s.bus.cart.one_le_romBankIndex hc v

/-- A bus write puts one byte into a store at an address the store has, or is a control write, or is dropped. -/
theorem State.Inv.busWrite {s t : State} {addr : Word} {v : Byte} (h : s.busWrite addr v = .ok t) (hs : s.Inv) :
    t.Inv := by
  obtain ⟨hw, ht⟩ := (s.busWrite_ok_iff t addr v).1 h
  rcases s.bus.write_cases t.bus addr v hw with ⟨-, e⟩ | ⟨hlo, hhi, e⟩ | ⟨hlo, hhi, e⟩ | ⟨-, -, k, hk, -, e⟩ | ⟨-, -, e⟩
  · exact State.Inv.of_bus_eq e (hs.writeRom addr v)
  · refine State.Inv.of_bus_eq (s := { s with bus := _ }) e ?_
    exact { hs with
      vram_wf := Memory.wf_write _ _ _ hs.vram_wf
      vram_within := Memory.within_write _ _ _ _ _ hs.vram_within hlo hhi }
  · refine State.Inv.of_bus_eq (s := { s with bus := _ }) e ?_
    exact { hs with
      wram_wf := Memory.wf_write _ _ _ hs.wram_wf
      wram_within := Memory.within_write _ _ _ _ _ hs.wram_within hlo hhi }
  · refine State.Inv.of_bus_eq (s := { s with bus := _ }) e ?_
    exact { hs with
      ram_wf := Memory.wf_write _ _ _ hs.ram_wf
      ram_within := Memory.within_write _ _ _ _ _ hs.ram_within (Nat.zero_le _) hk }
  · exact hs.of_bus_eq e

end Sys2Proof.Machine

namespace Sys2Proof.Proofs

open Sys2Proof.Machine Sys2Proof.Claims

/-- Settles O4: of the ways a step can end, only the three listed are faults, and none of them is a dispatch fault or a
refusal. -/
theorem stepFaultsOnlyForTheListedCauses : Obligations.StepFaultsOnlyForTheListedCauses := by
  refine ⟨fun s f h => ?listed, fun s t h => ?dispatch, fun s r h => ?refused⟩ <;>
    rcases step_stop_cases s with ⟨t, e⟩ | ⟨op, hop, hu, e⟩ | ⟨x, bytes, e⟩ | ⟨k, a, ha, e⟩ <;> rw [e] at h <;> cases h
  · exact .inl ⟨op, hop, hu, rfl⟩
  · exact .inr (.inl ⟨x, bytes, rfl⟩)
  · exact .inr (.inr ⟨k, a, ha, rfl⟩)

/-- Settles O24: without a store or a restart the next state has the platform it had. -/
theorem onlyStoresAndRestartsReachMemory : Obligations.OnlyStoresAndRestartsReachMemory := by
  intro i s t h hs hr
  rw [isStore_eq] at hs
  rw [isRestart_eq] at hr
  have bus : t.bus = s.bus := by
    rcases exec_next_cases i s t h with ⟨e, -, -⟩ | ⟨p, r, tag, -⟩ | ⟨v, m, tag, -, -⟩
    · rw [e]
    · rw [tag] at hs; cases hs
    · rw [tag] at hr; cases hr
  exact ⟨by rw [bus], by rw [bus], by rw [bus], fun a => s.busRead_congr t a bus⟩

/-- The ROM image and the controller's parameters are those of a given cartridge. -/
def SameRom (c : Cartridge) (s : State) : Prop :=
  s.bus.cart.rom = c.rom ∧ s.bus.cart.romSize = c.romSize ∧ s.bus.cart.config = c.config

/-- Settles O26: no bus write changes them, so no step does. -/
theorem runsNeverChangeTheRomImage : Obligations.RunsNeverChangeTheRomImage := by
  intro k s t h
  refine invariant_of_run (SameRom s.bus.cart) (fun u w hu hstep => ?kept) k s t ⟨rfl, rfl, rfl⟩ h
  case kept =>
    refine kept_by_step (P := SameRom s.bus.cart) ?core ?write hstep hu
    case core => exact fun u w e hu => by rwa [SameRom, e]
    case write =>
      intro u w addr v hw ⟨hrom, hsize, hconfig⟩
      obtain ⟨-, rom, size, config⟩ := u.busWrite_frame w addr v hw
      exact ⟨rom.trans hrom, size.trans hsize, config.trans hconfig⟩

/-- Settles O27: every bus write keeps the invariant, so every step does. -/
theorem stepKeepsTheInvariant : Obligations.StepKeepsTheInvariant := fun _ _ hs h =>
  kept_by_step (P := State.Inv) (fun _ _ e => State.Inv.of_bus_eq e) (fun _ _ _ _ => State.Inv.busWrite) h hs

end Sys2Proof.Proofs
end

section
/-! PROOFS. Restarts and stores on the reference bus (40_jumps.md section 3, 42_loads.md section 2), and what they leave in plain
memory. -/

namespace Sys2Proof.Machine

/-- A restart of the machine whose two writes succeed (40_jumps.md R106). -/
theorem exec_rst_next {i : Instr} {v : Word} (ht : i.tag = .rst v) {s s1 s2 : State}
    (hlo : State.busWrite { s with sp := s.sp - 2#16 } (s.sp - 2#16) (lo8 s.pc) = .ok s1)
    (hhi : s1.busWrite (s.sp - 1#16) (hi8 s.pc) = .ok s2) :
    s2 = { s with sp := s.sp - 2#16, bus := s2.bus } ∧
      exec i s = .next { s with pc := v, sp := s.sp - 2#16, bus := s2.bus } := by
  obtain ⟨hw1, e1⟩ := (State.busWrite_ok_iff _ _ _ _).1 hlo
  obtain ⟨hw2, e2⟩ := (State.busWrite_ok_iff _ _ _ _).1 hhi
  refine ⟨by rw [e2, e1], ?_⟩
  rw [exec_eq_onReference, onReference, execOn_rst_next ht hw1 hw2]
  rfl

theorem exec_rst_low_unwired {i : Instr} {v : Word} (ht : i.tag = .rst v) (s : State)
    (h : 0xE000 ≤ (s.sp - 2#16).toNat) : exec i s = .fault (.addressing .write (s.sp - 2#16)) := by
  rw [exec_eq_onReference, onReference, execOn_rst_low_fault ht ((Platform.write_eq_none_iff _ _ _).2 h)]

theorem exec_rst_high_unwired {i : Instr} {v : Word} (ht : i.tag = .rst v) (s : State)
    (hwired : (s.sp - 2#16).toNat < 0xE000) (h : 0xE000 ≤ (s.sp - 1#16).toNat) :
    exec i s = .fault (.addressing .write (s.sp - 1#16)) := by
  obtain ⟨s1, hlo⟩ := s.busWrite_wired _ (lo8 s.pc) hwired
  obtain ⟨hw1, -⟩ := (s.busWrite_ok_iff _ _ _).1 hlo
  rw [exec_eq_onReference, onReference, execOn_rst_high_fault ht hw1 ((Platform.write_eq_none_iff _ _ _).2 h)]

end Sys2Proof.Machine

namespace Sys2Proof.Proofs

open Sys2Proof.Machine Sys2Proof.Claims

/-- Settles O13: the push is two bus writes, and each leaves every place it is not routed to. -/
theorem restartPushesAndGoesToItsVector : Obligations.RestartPushesAndGoesToItsVector := by
  intro f hf
  obtain ⟨decodes, tag⟩ := restartForms_row f hf
  refine ⟨decode_of_whole decodes, fun s hlo hhi => ?wired, exec_rst_low_unwired tag, exec_rst_high_unwired tag⟩
  case wired =>
    obtain ⟨s1, low⟩ := State.busWrite_wired { s with sp := s.sp - 2#16 } _ (lo8 s.pc) hlo
    obtain ⟨s2, high⟩ := s1.busWrite_wired _ (hi8 s.pc) hhi
    obtain ⟨pushed, goes_on⟩ := exec_rst_next tag low high
    rw [← lo8_eq_ofNat, ← hi8_eq_ofNat]
    refine ⟨s1, s2, low, high, goes_on.trans (by rw [pushed]), by rw [pushed], by rw [pushed], by rw [pushed],
      fun q hq1 hq2 => ?others⟩
    case others => exact (State.load_busWrite_ne high q hq2).trans (State.load_busWrite_ne low q hq1)

/-- Settles O14: the second write leaves the first byte, and the invariant lets both be read back. -/
theorem restartStackReadsBack : Obligations.RestartStackReadsBack := by
  intro f hf s hinv hlo hhi
  obtain ⟨-, tag⟩ := restartForms_row f hf
  have distinct : s.sp - 2#16 ≠ s.sp - 1#16 := by bv_omega
  have hinv0 : State.Inv { s with sp := s.sp - 2#16 } := State.Inv.of_bus_eq (s := s) rfl hinv
  obtain ⟨s1, low, bus1, read1, others1⟩ := State.busWrite_plainRam { s with sp := s.sp - 2#16 } _ (lo8 s.pc) hlo
  have hinv1 : s1.Inv := hinv0.busWrite low
  obtain ⟨s2, high, bus2, read2, others2⟩ := s1.busWrite_plainRam _ (hi8 s.pc) hhi
  have cart1 : s1.bus.cart = s.bus.cart := by rw [bus1]
  have cart2 : s2.bus.cart = s1.bus.cart := by rw [bus2]
  have bus : s2.bus = { s.bus with vram := s2.bus.vram, wram := s2.bus.wram } :=
    congrArg (Platform.mk s2.bus.vram s2.bus.wram) (cart2.trans cart1)
  have reads (a : Word) : State.busRead { s with pc := f.2.2, sp := s.sp - 2#16, bus := s2.bus } a = s2.busRead a :=
    State.busRead_congr s2 _ a rfl
  refine ⟨_, (exec_rst_next tag low high).2, rfl, rfl, ⟨lo8 s.pc, hi8 s.pc, ?low, ?high, ?value⟩,
    fun a ha1 ha2 => ?others, ?frame⟩
  case low => exact (reads _).trans ((others2 _ distinct).trans (read1 hinv0.vram_wf hinv0.wram_wf))
  case high =>
    rw [reads, sub_two_add_one]
    exact read2 hinv1.vram_wf hinv1.wram_wf
  case value =>
    rw [toNat_hi8, toNat_lo8]
    omega
  case others =>
    rw [sub_two_add_one] at ha2
    calc _ = s2.busRead a := reads a
      _ = s1.busRead a := others2 a ha2
      _ = State.busRead { s with sp := s.sp - 2#16 } a := others1 a ha1
      _ = s.busRead a := State.busRead_congr s _ a rfl
  case frame => exact congrArg (fun q => { s with pc := f.2.2, sp := s.sp - 2#16, bus := q }) bus

/-- Settles O20: the store is one write into plain memory. -/
theorem storeToPlainRamReadsBack : Obligations.StoreToPlainRamReadsBack := by
  intro f hf s hinv hplain
  obtain ⟨-, tag⟩ := storeForms_row f hf
  obtain ⟨t, written, frame, read_back, others⟩ := s.busWrite_plainRam _ (s.reg f.2.2.2) hplain
  exact ⟨t, exec_store_next tag written, read_back hinv.vram_wf hinv.wram_wf, others, frame⟩

/-- Settles O31: the byte read back at the next address is the whole encoding of the instruction. -/
theorem storedByteIsTheNextInstruction : Obligations.StoredByteIsTheNextInstruction := by
  intro s i hinv hop hpair hplain hd
  obtain ⟨t, written, frame, read_back, -⟩ := (s.past .ldAtHlA).busWrite_plainRam (s.pc + 1#16) s.regs.a hplain
  have stores : step s = .next t := by
    rw [step_of_bytesAt (i := .ldAtHlA) ⟨hop, trivial⟩]
    apply exec_store_next (p := .hl) (r := .a) rfl
    rw [← hpair] at written
    exact written
  have pc : t.pc = s.pc + 1#16 := by rw [frame]; rfl
  have one_byte : [s.regs.a] = encode i := eq_encode_of_decode hd
  have length : i.length = 1 := by rw [← encode_length, ← one_byte]; rfl
  have bytes : t.bytesAt t.pc (encode i) := by
    rw [← one_byte, pc]
    exact ⟨read_back hinv.vram_wf hinv.wram_wf, trivial⟩
  refine ⟨t, stores, pc, ?next⟩
  case next =>
    have two : t.pc + BitVec.ofNat 16 i.length = s.pc + 2#16 := by rw [pc, length, BitVec.add_assoc]; rfl
    rw [step_of_bytesAt bytes, State.past, two]
    rfl

end Sys2Proof.Proofs
end
